-- ==== Sys2Proof/Word.lean ====
section
/-! DEFINITION. The widths of the CORE (spec/00_scope.md R6, R9): every value is an unsigned bit vector. -/

namespace Sys2Proof

/-- One bit: a message bit, `ERR`, a one-wire port (R9). `true` is 1. -/
abbrev Bit := Bool

/-- A message byte (R9: 8 bits). -/
abbrev Byte := BitVec 8

/-- A register value of the datapath: `CRC`, `POLY`, every round result (R9: 16 bits). -/
abbrev Word := BitVec 16

/-- A command word, the value of `cmd_in[31:0]` (R9, R38: 32 bits). -/
abbrev CmdWord := BitVec 32

end Sys2Proof
end

