-- ==== Sys2Proof/Config.lean ====
section
/-! DEFINITION. What is fixed for the machine (spec/00_scope.md R4, R5), the values of an OPEN parameter, and the free
values. An OPEN parameter itself is an argument of what uses it (R5). An `opaque` constant has no body: nothing can be proved of its value. -/

namespace Sys2Proof.Config

/-- `INIT_VALUE` (R4). -/
def initValue : Word := 0xFFFF#16

/-- `BYTE_BITS`: bits per message byte (R4). -/
def byteBits : Nat := 8

/-- `FLUSH_ROUNDS` (R4). -/
def flushRounds : Nat := 16

/-- `CRC_RESET` (R5, R20, D9). -/
def crcReset : Word := 0xFFFF#16

/-- `POLY_RESET` (R5, R20, D8). -/
def polyReset : Word := 0x1021#16

/-- `ERR_RESET` (R5, R20, D10). -/
def errReset : Bit := false

/-- The values of the OPEN parameter `result_byte_order` (R5, R32, D20). What uses it takes it as an argument. -/
inductive ByteOrder where
  | le
  | be
deriving DecidableEq, Repr

/-- What `crc_out` shows at the n-th moment inside a command: any value (R88, U4; log 4). -/
opaque midCommandCrcOut : Nat → Word

/-- What `poly_out` shows at the n-th moment inside a command: any value (R88, U4; log 4). -/
opaque midCommandPolyOut : Nat → Word

/-- What `err_out` shows at the n-th moment inside a command: any value (R88, U4; log 4). -/
opaque midCommandErrOut : Nat → Bit

end Sys2Proof.Config
end

