-- ==== Sys2Proof/Machine/Operands.lean ====
section
/-! DEFINITION. The fields of a command word (spec/30_encoding.md R38), how each command's operand is cut from them
(R40), and the order in which a byte's bits are fed (spec/20_memory.md R24). -/

namespace Sys2Proof.Machine

/-- `OP = w[3:0]` (R38). -/
def opField (w : CmdWord) : BitVec 4 := w.extractLsb' 0 4

/-- `RSV = w[15:4]` (R38). -/
def rsvField (w : CmdWord) : BitVec 12 := w.extractLsb' 4 12

/-- `IMM16 = w[31:16]` (R38). -/
def immField (w : CmdWord) : Word := w.extractLsb' 16 16

/-- SETPOLY's polynomial, all 16 bits of `IMM16` (R40). -/
def polyOperand (imm : Word) : Word := imm

/-- BIT's message bit, `w[16]` (R40). -/
def bitOperand (imm : Word) : Bit := imm.getLsbD 0

/-- BYTE's message byte, `w[23:16]` (R40). -/
def byteOperand (imm : Word) : Byte := imm.extractLsb' 0 8

/-- `IMM16[15:1]`, which BIT requires to be 0 (R41). -/
def bitExcess (imm : Word) : BitVec 15 := imm.extractLsb' 1 15

/-- `IMM16[15:8]`, which BYTE requires to be 0 (R41). -/
def byteExcess (imm : Word) : BitVec 8 := imm.extractLsb' 8 8

/-- A byte's bits in the order in which they enter the round, `d[7]` first and `d[0]` last (R24). -/
def byteBits (d : Byte) : List Bit := (List.range Config.byteBits).reverse.map d.getLsbD

/-- The 16 zero bits of a flush (R55). -/
def flushBits : List Bit := List.replicate Config.flushRounds false

/-- The bit stream of a message: `Buf[0][7]` first, `Buf[n-1][0]` last (R24). -/
def messageBits (buf : List Byte) : List Bit := buf.flatMap byteBits

end Sys2Proof.Machine
end

