-- ==== Sys2Proof/Syntax.lean ====
section
/-! DEFINITION. The commands of spec/opcode_table.json, one constructor a row, and the assembler's lines (R45 to R47). -/

namespace Sys2Proof

/-- The six commands (spec/30_encoding.md R39), each operand at the width R40 gives it. -/
inductive Instr where
  /-- No operation (R70). -/
  | nop
  /-- `CRC <- 0xFFFF` (R52). -/
  | init
  /-- `POLY <- p` (R69). -/
  | setpoly (p : Word)
  /-- One round with one message bit (R53). -/
  | bit (b : Bit)
  /-- The eight rounds of one message byte, most significant bit first (R54). -/
  | byte (d : Byte)
  /-- Sixteen rounds with no input bits (R55). -/
  | flush
deriving DecidableEq, Repr

/-- The mnemonic of spec/opcode_table.json. -/
def Instr.mnemonic : Instr → String
  | .nop => "nop"
  | .init => "init"
  | .setpoly _ => "setpoly"
  | .bit _ => "bit"
  | .byte _ => "byte"
  | .flush => "flush"

/-- A line of an assembler program (R45), with its operands as the numbers that were written: they may be out of
range, and then the line is ill formed. The last three are the pseudo-instructions (R46, R47). -/
inductive AsmLine where
  | nop
  | init
  | setpoly (p : Nat)
  | bit (b : Nat)
  | byte (d : Nat)
  | flush
  /-- `.word w`: the word itself, legal or not (R45). -/
  | word (w : Nat)
  /-- `crc16 d0, d1, …` (R46). -/
  | crc16 (ds : List Nat)
  /-- `bits v, k` (R47). -/
  | bits (v k : Nat)
  /-- `zeros k` (R47). -/
  | zeros (k : Nat)
deriving DecidableEq, Repr

end Sys2Proof
end

