-- ==== Sys2Proof/Decode.lean ====
section
/-! DEFINITION. The decoder (spec/30_encoding.md R42), total on every 32-bit word, then the encoder, both from R38 to
R41; a command word carried as bytes (spec/20_memory.md R33); and the rows of spec/opcode_table.json as data. -/

namespace Sys2Proof

open Machine

/-- Why a word is `ILLEGAL` (R41, R43). A name for the reader only: the machine has one exception, without a cause
(R71), so no reason reaches the state. -/
inductive Reject where
  /-- A bit of `RSV` is 1 (R41). -/
  | reservedBits
  /-- `OP` is 0x6 to 0xF (R43). -/
  | reservedOpcode
  /-- A bit of `IMM16` that the command requires to be 0 is 1 (R41). -/
  | operandBits
deriving DecidableEq, Repr

/-- What a word decodes to: one of the six commands or `ILLEGAL` (R42). -/
inductive Decoded where
  | legal (i : Instr)
  | illegal (why : Reject)
deriving DecidableEq, Repr

/-- `ILLEGAL` as a test. -/
def Decoded.isIllegal : Decoded → Bool
  | .legal _ => false
  | .illegal _ => true

/-- The command, if the word is one. -/
def Decoded.instr? : Decoded → Option Instr
  | .legal i => some i
  | .illegal _ => none

/-- The case analysis of R42 by the value of `OP`, for a word whose `RSV` is 0. -/
def decodeOp (op : Nat) (imm : Word) : Decoded :=
  match op with
  | 0 => if imm = 0 then .legal .nop else .illegal .operandBits
  | 1 => if imm = 0 then .legal .init else .illegal .operandBits
  | 2 => .legal (.setpoly (polyOperand imm))
  | 3 => if bitExcess imm = 0 then .legal (.bit (bitOperand imm)) else .illegal .operandBits
  | 4 => if byteExcess imm = 0 then .legal (.byte (byteOperand imm)) else .illegal .operandBits
  | 5 => if imm = 0 then .legal .flush else .illegal .operandBits
  | _ => .illegal .reservedOpcode

/-- `decode(w)` (R42). -/
def decode (w : CmdWord) : Decoded :=
  if rsvField w ≠ 0 then .illegal .reservedBits else decodeOp (opField w).toNat (immField w)

/-- The word with the given `IMM16` and `OP`, and `RSV` = 0 (R38). -/
def packWord (imm : Word) (op : BitVec 4) : CmdWord := (imm ++ 0#12) ++ op

/-- The word of a command (R39, R40; the words of R45's table). -/
def encode : Instr → CmdWord
  | .nop => packWord 0 0x0#4
  | .init => packWord 0 0x1#4
  | .setpoly p => packWord p 0x2#4
  | .bit b => packWord (BitVec.setWidth 16 (BitVec.ofBool b)) 0x3#4
  | .byte d => packWord (BitVec.setWidth 16 d) 0x4#4
  | .flush => packWord 0 0x5#4

/-- A command word out of four bytes, bits 7:0 first (R33). -/
def wordOfBytes (b0 b1 b2 b3 : Byte) : CmdWord := ((b3 ++ b2) ++ b1) ++ b0

/-- The four bytes that carry a command word over a byte-wide transport, bits 7:0 first (R33). -/
def bytesOfWord (w : CmdWord) : List Byte :=
  [w.extractLsb' 0 8, w.extractLsb' 8 8, w.extractLsb' 16 8, w.extractLsb' 24 8]

/-- Decoding from a byte-wide transport: the first command and the bytes after it. Fewer than four bytes carry no
command yet (R33, R44; log 13). -/
def decodeBytes : List Byte → Option (Decoded × List Byte)
  | b0 :: b1 :: b2 :: b3 :: rest => some (decode (wordOfBytes b0 b1 b2 b3), rest)
  | _ => none

/-- The command word whose low `nbits` bits are those of `w`, zero above. -/
def tableWord (nbits w : Nat) : CmdWord := BitVec.ofNat 32 (w % 2 ^ nbits)

/-- The command the decoder reads from the `nbits` table bits `w`, through the bytes that carry it. -/
def decodeTableWord (nbits w : Nat) : Option Instr :=
  match decodeBytes (bytesOfWord (tableWord nbits w)) with
  | some (.legal i, _) => some i
  | _ => none

/-- A row of spec/opcode_table.json. -/
structure Row where
  mnemonic : String
  pattern : CmdWord
  mask : CmdWord
deriving DecidableEq, Repr

/-- A word fits a row when its bits under the mask are the row's. -/
def Row.fits (r : Row) (w : CmdWord) : Bool := (w &&& r.mask) == r.pattern

/-- spec/opcode_table.json, row for row ("match" is `pattern` here). -/
def opcodeTable : List Row :=
  [ ⟨"nop", 0x00000000#32, 0xFFFFFFFF#32⟩,
    ⟨"init", 0x00000001#32, 0xFFFFFFFF#32⟩,
    ⟨"setpoly", 0x00000002#32, 0x0000FFFF#32⟩,
    ⟨"bit", 0x00000003#32, 0xFFFEFFFF#32⟩,
    ⟨"byte", 0x00000004#32, 0xFF00FFFF#32⟩,
    ⟨"flush", 0x00000005#32, 0xFFFFFFFF#32⟩ ]

end Sys2Proof
end

