-- ==== Sys2Proof/Machine/State.lean ====
section
/-! DEFINITION. The machine's state as plain data (spec/10_state.md), the reasons a step can stop, and the state after
reset (R20, R80). -/

namespace Sys2Proof.Machine

/-- What the host drives on the input ports of R15 during one step of the model (log 1). -/
structure PortInput where
  /-- `rst` is asserted during this step and released by its end (R80, R81). -/
  rst : Bit
  /-- `cmd_valid`: the host presents a command. -/
  cmdValid : Bit
  /-- `cmd_in[31:0]`. -/
  cmdIn : CmdWord
  /-- The host drives nothing further before `cmd_ready` is high again, as R87 asks of it. When it is false the next
  input, if one follows, comes while the command is still in progress. -/
  awaitReady : Bit
deriving DecidableEq, Repr

/-- A host that presents one command word and waits for `cmd_ready` (R87). -/
def PortInput.command (w : CmdWord) : PortInput :=
  { rst := false, cmdValid := true, cmdIn := w, awaitReady := true }

/-- A reset pulse (R80). -/
def PortInput.reset : PortInput := { rst := true, cmdValid := false, cmdIn := 0, awaitReady := true }

/-- A host that presents nothing and waits for `cmd_ready`. -/
def PortInput.idle : PortInput := { rst := false, cmdValid := false, cmdIn := 0, awaitReady := true }

/-- The state of the CORE, of its handshake, and of the host that drives it. -/
structure State where
  /-- `CRC` (R11). -/
  crc : Word
  /-- `POLY` (R12). -/
  poly : Word
  /-- `ERR` (R13). -/
  err : Bit
  /-- The accepted command word still in progress, if there is one: `cmd_ready` is high when there is none (R16, R17,
  R87; log 3). No part of its effect is in the registers yet (R34). -/
  inProgress : Option CmdWord
  /-- What the host drives on the input ports in the coming steps, the next one first (R15, R18; log 1). -/
  inputs : List PortInput
  /-- The MODEL's own field: the number of the moment at which the outputs are unspecified (R88; log 4). -/
  draws : Nat
deriving DecidableEq, Repr

/-- `cmd_ready`: high when no accepted command is still in progress (R16). -/
def State.cmdReady (s : State) : Bit := s.inProgress.isNone

/-- The state after reset (R20, R80): `CRC` = 0xFFFF, `POLY` = 0x1021, `ERR` = 0, `cmd_ready` = 1; the host drives
nothing (log 9) and no free value has been drawn (log 4). -/
def State.reset : State :=
  { crc := Config.crcReset
    poly := Config.polyReset
    err := Config.errReset
    inProgress := none
    inputs := []
    draws := 0 }

/-- Why something stops with a fault. No step of the CORE does (R79). -/
inductive Fault where
  /-- Raised by the host-side helpers only, given a buffer shorter than they need (R30, R79, U2). Safe: the helper
  stops with no value. -/
  | shortBuffer (need got : Nat)
deriving DecidableEq, Repr

/-- Why the model gives a step no meaning. -/
inductive Refusal where
  /-- Raised by the dispatcher for a command without a meaning; no command of this model is without one. Safe. -/
  | notModelled (mnemonic : String)
  /-- Raised when the host presents the word `w` while `cmd_ready` is 0: its fate is not specified, and the model has
  no step for it (R79, R87, U5). Unsafe: of a device that accepts or corrupts such a command the model misses the run
  (log 5). -/
  | commandWhileBusy (w : CmdWord)
deriving DecidableEq, Repr

end Sys2Proof.Machine
end

