-- ==== Sys2Proof/Machine/Flags.lean ====
section
/-! DEFINITION. The one flag, `ERR` (spec/10_state.md R13): set by an illegal command, cleared only by reset. No legal
command writes it (R52 to R55, R69, R70: "Flags written: none"). -/

namespace Sys2Proof.Machine

/-- `ERR <- 1` (R72). -/
def State.setErr (s : State) : State := { s with err := true }

/-- `ERR <- 0`, by reset alone (R13, R75, R80). -/
def State.clearErr (s : State) : State := { s with err := Config.errReset }

end Sys2Proof.Machine
end

