-- ==== Sys2Proof/Machine/Ops.lean ====
section
/-! DEFINITION. The operations the commands share: the round (spec/40_crc_datapath.md R48), absorbing a stream of bits,
the register writes, the one exception (spec/60_exceptions.md R72), reset (spec/70_reset_and_hazards.md R80), and the
handshake's holding of a command. There is no return from the exception (R75). -/

namespace Sys2Proof.Machine

/-- `Round(r, b, p)`, the source's four steps 2a to 2d in their order (R48, R49). -/
def crcRound (r : Word) (b : Bit) (p : Word) : Word :=
  let carry := r.getLsbD 15
  let t := r <<< 1
  let t := if b then t ||| 0x0001#16 else t
  if carry then t ^^^ p else t

/-- The rounds of a stream of bits, first bit first, under one polynomial. -/
def absorbBits (r : Word) (bs : List Bit) (p : Word) : Word := bs.foldl (fun t b => crcRound t b p) r

/-- `CRC <- v` (R8). -/
def State.writeCrc (s : State) (v : Word) : State := { s with crc := v }

/-- `POLY <- v` (R8). -/
def State.writePoly (s : State) (v : Word) : State := { s with poly := v }

/-- The rounds of a stream of bits on `CRC`, each with `POLY` as it stands (R53 to R55, R86). -/
def State.absorb (s : State) (bs : List Bit) : State := s.writeCrc (absorbBits s.crc bs s.poly)

/-- `raise IllegalCommand`: taking the one exception. `ERR <- 1`; `CRC` and `POLY` unchanged, no round done, nothing
else written, no control transfer (R72, R73). -/
def State.raiseIllegalCommand (s : State) : State := s.setErr

/-- Reset, from any state: every architectural register is written and a command in progress is abandoned (R80, R81).
The host's further inputs and the count of free values are not the CORE's and stay (log 6). -/
def State.applyReset (s : State) : State :=
  { ((s.writeCrc Config.crcReset).writePoly Config.polyReset).clearErr with inProgress := none }

/-- `cmd_ready` falls: the accepted word is in progress, none of its effect in the registers yet (R87). -/
def State.hold (s : State) (w : CmdWord) : State := { s with inProgress := some w, draws := s.draws + 1 }

/-- Time passes inside a command; the unspecified outputs may change (R88; log 4). -/
def State.stayBusy (s : State) : State := { s with draws := s.draws + 1 }

/-- The command in progress is over: `cmd_ready` rises (R87). -/
def State.release (s : State) : State := { s with inProgress := none }

/-- What the host drives in this step, and the state with the later inputs left. A host with nothing left to drive
drives nothing (log 2). -/
def State.takeInput (s : State) : PortInput × State :=
  match s.inputs with
  | [] => (PortInput.idle, s)
  | p :: rest => (p, { s with inputs := rest })

/-- The state in which the host's next input presents the word `w`, accepted at once (for `State.withFetchWord`). -/
def State.presentWord (s : State) (w : CmdWord) : State :=
  { s with inProgress := none, inputs := PortInput.command w :: s.inputs }

end Sys2Proof.Machine
end

