-- ==== Sys2Proof/Machine/Configuration.lean ====
section
/-! DEFINITION. The commands that absorb no message bits: SETPOLY, NOP (spec/41_config.md R69, R70). -/

namespace Sys2Proof.Machine

/-- SETPOLY p: `POLY <- p` (R69). -/
def execSetpoly (p : Word) (s : State) : Host.Outcome State Fault Refusal := .next (s.writePoly p)

/-- NOP: no state changes (R70). -/
def execNop (s : State) : Host.Outcome State Fault Refusal := .next s

end Sys2Proof.Machine
end

