-- ==== Sys2Proof/Machine/Datapath.lean ====
section
/-! DEFINITION. The commands of the CRC datapath: INIT, BIT, BYTE, FLUSH (spec/40_crc_datapath.md R52 to R55). -/

namespace Sys2Proof.Machine

/-- INIT: `CRC <- 0xFFFF` (R52). -/
def execInit (s : State) : Host.Outcome State Fault Refusal := .next (s.writeCrc Config.initValue)

/-- BIT b: `CRC <- Round(CRC, b, POLY)` (R53). -/
def execBit (b : Bit) (s : State) : Host.Outcome State Fault Refusal := .next (s.absorb [b])

/-- BYTE d: the rounds of `d[7]`, …, `d[0]`, one atomic step (R54). -/
def execByte (d : Byte) (s : State) : Host.Outcome State Fault Refusal := .next (s.absorb (byteBits d))

/-- FLUSH: 16 rounds with bit 0, one atomic step (R55). -/
def execFlush (s : State) : Host.Outcome State Fault Refusal := .next (s.absorb flushBits)

end Sys2Proof.Machine
end

