-- ==== Sys2Proof/Machine/Dispatch.lean ====
section
/-! DEFINITION. Which meaning each command has (spec/30_encoding.md R42: "acted on by its rule"). -/

namespace Sys2Proof.Machine

def exec (i : Instr) (s : State) : Host.Outcome State Fault Refusal :=
  match i with
  | .nop => Sys2Proof.Machine.execNop s
  | .init => Sys2Proof.Machine.execInit s
  | .setpoly p => Sys2Proof.Machine.execSetpoly p s
  | .bit b => Sys2Proof.Machine.execBit b s
  | .byte d => Sys2Proof.Machine.execByte d s
  | .flush => Sys2Proof.Machine.execFlush s

end Sys2Proof.Machine
end

