-- ==== Sys2Proof/Machine/Execute.lean ====
section
/-! DEFINITION. One accepted command word (spec/60_exceptions.md R72), the handshake and reset around it
(spec/70_reset_and_hazards.md R80, R81, R87), and a sequence of words in acceptance order (spec/20_memory.md R35). -/

namespace Sys2Proof.Machine

/-- `Execute(w)` (R72): a legal word has its command's effect, an illegal one raises `IllegalCommand`. -/
def execute (w : CmdWord) (s : State) : Host.Outcome State Fault Refusal :=
  match decode w with
  | .legal i => exec i s
  | .illegal _ => .next s.raiseIllegalCommand

/-- No command is in progress (`cmd_ready` = 1): a presented word is accepted (R15). If the host waits for `cmd_ready`
the command is one atomic step (R34, D2); if it does not, the word is held and the next input finds it in progress. -/
def driveReady (p : PortInput) (s : State) : Host.Outcome State Fault Refusal :=
  if p.cmdValid then
    if p.awaitReady then execute p.cmdIn s else .next (s.hold p.cmdIn)
  else .next s

/-- The command word `w` is in progress (`cmd_ready` = 0): presenting another is refused (R79, R87). A host that waits
sees it complete, its whole effect at once (R34, R90); otherwise time passes. -/
def driveBusy (w : CmdWord) (p : PortInput) (s : State) : Host.Outcome State Fault Refusal :=
  if p.cmdValid then .refused (.commandWhileBusy p.cmdIn)
  else if p.awaitReady then execute w s.release else .next s.stayBusy

/-- One step's worth of port inputs. Reset overrides everything (R74, R80, R81). -/
def drive (p : PortInput) (s : State) : Host.Outcome State Fault Refusal :=
  if p.rst then .next s.applyReset
  else
    match s.inProgress with
    | none => driveReady p s
    | some w => driveBusy w p s

/-- The host's next port input, driven. -/
def stepInput (s : State) : Host.Outcome State Fault Refusal := drive s.takeInput.1 s.takeInput.2

/-- A sequence of accepted words, in acceptance order, each reading the state the earlier ones left (R35). -/
def executeAll : List CmdWord → State → Host.Outcome State Fault Refusal
  | [], s => .next s
  | w :: ws, s =>
    match execute w s with
    | .next t => executeAll ws t
    | .fault r => .fault r
    | .refused r => .refused r

end Sys2Proof.Machine
end

