-- ==== Sys2Proof/WellFormed.lean ====
section
/-! DEFINITION. Which terms are well formed. An `Instr` always is: its operand types carry the widths of R40, so no
ill-formed command can be written down. The checks are those of an assembler line (R45 to R47), whose operands are
numbers: "An operand out of range is rejected by the assembler and encodes nothing." -/

namespace Sys2Proof

/-- The operand ranges of R45 (commands and `.word`), R46 (every operand is a `byte` operand) and R47. -/
def AsmLine.wellFormed : AsmLine → Bool
  | .nop | .init | .flush => true
  | .setpoly p => decide (p ≤ 0xFFFF)
  | .bit b => decide (b ≤ 1)
  | .byte d => decide (d ≤ 0xFF)
  | .word w => decide (w ≤ 0xFFFFFFFF)
  | .crc16 ds => ds.all (fun d => decide (d ≤ 0xFF))
  | .bits v k => decide (1 ≤ k) && decide (k ≤ 16) && decide (v < 2 ^ k)
  | .zeros k => decide (1 ≤ k)

end Sys2Proof
end

