-- ==== Sys2Proof/Machine/Assembler.lean ====
section
/-! DEFINITION. The assembler (spec/30_encoding.md R45 to R47): from the text of a program to its command words. It
runs on the host; the CORE sees only the words. Where R45 is silent on the text's layout, log 12 says what is taken. -/

namespace Sys2Proof.Machine

/-- The bits of `bits v, k`, most significant first: `v[k-1]`, …, `v[0]` (R47). -/
def bitsMsbFirst (v k : Nat) : List Bit := (List.range k).reverse.map v.testBit

/-- The commands of a line, or its raw word, taking its operands as in range (R45 to R47). -/
def AsmLine.expand : AsmLine → List CmdWord
  | .nop => [encode .nop]
  | .init => [encode .init]
  | .setpoly p => [encode (.setpoly (BitVec.ofNat 16 p))]
  | .bit b => [encode (.bit (b == 1))]
  | .byte d => [encode (.byte (BitVec.ofNat 8 d))]
  | .flush => [encode .flush]
  | .word w => [BitVec.ofNat 32 w]
  | .crc16 ds => encode .init :: (ds.map (fun d => encode (.byte (BitVec.ofNat 8 d))) ++ [encode .flush])
  | .bits v k => (bitsMsbFirst v k).map (fun b => encode (.bit b))
  | .zeros k => List.replicate k (encode (.bit false))

/-- The words of a line. An operand out of range is rejected and encodes nothing (R45). -/
def AsmLine.assemble (l : AsmLine) : Option (List CmdWord) :=
  if l.wellFormed then some (AsmLine.expand l) else none

/-- A blank inside a line. -/
def isBlank (c : Char) : Bool := c == ' ' || c == '\t'

/-- The text without the blanks at both ends. -/
def trimBlanks (cs : List Char) : List Char := ((cs.dropWhile isBlank).reverse.dropWhile isBlank).reverse

/-- The pieces of a text between the occurrences of one character. -/
def piecesAt (sep : Char) : List Char → List (List Char)
  | [] => [[]]
  | c :: cs =>
    if c == sep then [] :: piecesAt sep cs
    else
      match piecesAt sep cs with
      | [] => [[c]]
      | piece :: pieces => (c :: piece) :: pieces

/-- The value of a digit in the given base (10 or 16). -/
def digitValue (base : Nat) (c : Char) : Option Nat :=
  let n := c.toNat
  let v :=
    if 48 ≤ n ∧ n ≤ 57 then some (n - 48)
    else if 97 ≤ n ∧ n ≤ 102 then some (n - 87)
    else if 65 ≤ n ∧ n ≤ 70 then some (n - 55)
    else none
  v.bind (fun k => if k < base then some k else none)

/-- A nonempty run of digits as a number, most significant first. -/
def digitsValue (base : Nat) : List Char → Option Nat
  | [] => none
  | c :: cs =>
    cs.foldl (fun acc e => acc.bind (fun a => (digitValue base e).map (fun v => a * base + v))) (digitValue base c)

/-- An immediate: decimal, or `0x` hexadecimal (R45). -/
def immediate : List Char → Option Nat
  | '0' :: 'x' :: ds => digitsValue 16 ds
  | ds => digitsValue 10 ds

/-- All values of a list of optional values, or none. -/
def allOf {α : Type} : List (Option α) → Option (List α)
  | [] => some []
  | none :: _ => none
  | some a :: rest => (allOf rest).map (a :: ·)

/-- The operands of a line, separated by commas; none when there is no text. -/
def operands (cs : List Char) : Option (List Nat) :=
  match trimBlanks cs with
  | [] => some []
  | ds => allOf ((piecesAt ',' ds).map (fun o => immediate (trimBlanks o)))

/-- A line from its lower-case mnemonic and its operands (R45 to R47). -/
def lineOf (mnemonic : List Char) (ops : List Nat) : Option AsmLine :=
  if mnemonic = ['n', 'o', 'p'] then (match ops with | [] => some .nop | _ => none)
  else if mnemonic = ['i', 'n', 'i', 't'] then (match ops with | [] => some .init | _ => none)
  else if mnemonic = ['s', 'e', 't', 'p', 'o', 'l', 'y'] then (match ops with | [p] => some (.setpoly p) | _ => none)
  else if mnemonic = ['b', 'i', 't'] then (match ops with | [b] => some (.bit b) | _ => none)
  else if mnemonic = ['b', 'y', 't', 'e'] then (match ops with | [d] => some (.byte d) | _ => none)
  else if mnemonic = ['f', 'l', 'u', 's', 'h'] then (match ops with | [] => some .flush | _ => none)
  else if mnemonic = ['.', 'w', 'o', 'r', 'd'] then (match ops with | [w] => some (.word w) | _ => none)
  else if mnemonic = ['c', 'r', 'c', '1', '6'] then some (.crc16 ops)
  else if mnemonic = ['b', 'i', 't', 's'] then (match ops with | [v, k] => some (.bits v k) | _ => none)
  else if mnemonic = ['z', 'e', 'r', 'o', 's'] then (match ops with | [k] => some (.zeros k) | _ => none)
  else none

/-- One line of text: a `;` starts a comment that runs to its end, and a line of blanks holds no command (R45). -/
def parseLine (cs : List Char) : Option (List AsmLine) :=
  match trimBlanks (cs.takeWhile (· != ';')) with
  | [] => some []
  | ds =>
    let mnemonic := ds.takeWhile (fun c => !isBlank c)
    ((operands (ds.drop mnemonic.length)).bind (lineOf mnemonic)).map (fun l => [l])

/-- A program: one command a line (R45). DESIGN CHOICE (log 12): R45 does not say which character ends a line; the line
feed alone does, so a carriage return is an ordinary character, and the last line needs no line feed. -/
def parseProgram (cs : List Char) : Option (List AsmLine) :=
  (allOf ((piecesAt '\n' cs).map parseLine)).map List.flatten

/-- The words of a program. If any line is rejected there are none (R45; log 12). -/
def assembleProgram (cs : List Char) : Option (List CmdWord) :=
  (parseProgram cs).bind (fun ls => (allOf (ls.map AsmLine.assemble)).map List.flatten)

end Sys2Proof.Machine
end

