-- ==== Sys2Proof/Machine/HostHelpers.lean ====
section
/-! DEFINITION. The host-side byte-lane helpers (spec/20_memory.md R25 to R30) over a caller-owned buffer, and the
serialisation of the result (R32). They are no operations of the CORE (R2, D25): no command calls them, and their fault
is the host's (R79). A helper given a short buffer answers a fault and no buffer: nothing is written (R30). -/

namespace Sys2Proof.Machine

/-- `store16(value, Buf)`: least significant byte first; bytes at index 2 and above stay (R26). -/
def store16 (v : BitVec 16) : List Byte → Except Fault (List Byte)
  | _ :: _ :: rest => .ok (v.extractLsb' 0 8 :: v.extractLsb' 8 8 :: rest)
  | buf => .error (.shortBuffer 2 buf.length)

/-- `store32(value, Buf)`: least significant byte first; bytes at index 4 and above stay (R27). -/
def store32 (v : BitVec 32) : List Byte → Except Fault (List Byte)
  | _ :: _ :: _ :: _ :: rest =>
    .ok (v.extractLsb' 0 8 :: v.extractLsb' 8 8 :: v.extractLsb' 16 8 :: v.extractLsb' 24 8 :: rest)
  | buf => .error (.shortBuffer 4 buf.length)

/-- `load16(Buf)`: `{Buf[1], Buf[0]}` (R28). -/
def load16 : List Byte → Except Fault (BitVec 16)
  | b0 :: b1 :: _ => .ok (b1 ++ b0)
  | buf => .error (.shortBuffer 2 buf.length)

/-- `load32(Buf)`: `{Buf[3], Buf[2], Buf[1], Buf[0]}` (R29). -/
def load32 : List Byte → Except Fault (BitVec 32)
  | b0 :: b1 :: b2 :: b3 :: _ => .ok (((b3 ++ b2) ++ b1) ++ b0)
  | buf => .error (.shortBuffer 4 buf.length)

/-- The two bytes of the result when the host splits it, in the order `result_byte_order` says: a platform parameter,
taken as an argument (R5, R32, D20; log 10). -/
def serialiseResult (order : Config.ByteOrder) (c : Word) : List Byte :=
  match order with
  | .le => [c.extractLsb' 0 8, c.extractLsb' 8 8]
  | .be => [c.extractLsb' 8 8, c.extractLsb' 0 8]

end Sys2Proof.Machine
end

