-- ==== Sys2Proof/Machine/Message.lean ====
section
/-! DEFINITION. Whole messages (spec/40_crc_datapath.md R57, R65) and the command sequences that feed them to the CORE
(spec/20_memory.md R23, spec/30_encoding.md R46). The message buffer is a parameter of a run, not state (R18). -/

namespace Sys2Proof.Machine

/-- The 16 zero rounds of R55 on a register value. -/
def flushRounds (r p : Word) : Word := absorbBits r flushBits p

/-- `crc16(Buf, p)` (R57): from 0xFFFF, the rounds of every byte in buffer order, then 16 zero rounds. -/
def crc16 (buf : List Byte) (p : Word) : Word :=
  flushRounds (buf.foldl (fun r d => absorbBits r (byteBits d) p) Config.initValue) p

/-- One shift of the direct form: `r <- (r << 1)[15:0] ^ (r[15] ? p : 0)` (R65). -/
def directShift (p r : Word) : Word := (r <<< 1) ^^^ (if r.getLsbD 15 then p else 0)

/-- `direct(Buf, p, r0)` (R65): each byte is XORed into the high byte, then 8 shifts, and no flush. -/
def directForm (buf : List Byte) (p r0 : Word) : Word :=
  buf.foldl (fun r d => (directShift p)^[8] (r ^^^ (BitVec.setWidth 16 d <<< 8))) r0

/-- The source's `crc16` as its original build computed it, given the OPEN parameter `CRCPOLY`: the spec states no value
for it, so it is an argument (R5, D23, U9; log 11). The CORE does not need it. -/
def historicalCrc16 (crcPoly : Word) (buf : List Byte) : Word := crc16 buf crcPoly

/-- The commands of a message: INIT, one BYTE per buffer byte from index 0 on, FLUSH (R23, R46). -/
def messageCommands (buf : List Byte) : List Instr := .init :: (buf.map .byte ++ [.flush])

/-- A host that presents these commands one after the other, waiting for `cmd_ready` each time (R35, R87). -/
def presentAll (is : List Instr) : List PortInput := is.map (fun i => .command (encode i))

end Sys2Proof.Machine
end

