-- ==== Sys2Proof/Machine/Ports.lean ====
section
/-! DEFINITION. The output ports (spec/10_state.md R16): read between steps, without side effect (spec/20_memory.md
R34). -/

namespace Sys2Proof.Machine

/-- What the host sees on the output ports (R16). -/
structure Outputs where
  crcOut : Word
  polyOut : Word
  errOut : Bit
  cmdReady : Bit
deriving DecidableEq, Repr

/-- The output ports: the registers while `cmd_ready` = 1 (R16); while a command is in progress the three data outputs
are any value (R88, U4; log 4). -/
def State.outputs (s : State) : Outputs :=
  match s.inProgress with
  | none => { crcOut := s.crc, polyOut := s.poly, errOut := s.err, cmdReady := true }
  | some _ =>
    { crcOut := Config.midCommandCrcOut s.draws
      polyOut := Config.midCommandPolyOut s.draws
      errOut := Config.midCommandErrOut s.draws
      cmdReady := false }

end Sys2Proof.Machine
end

