-- ==== Sys2Proof/Safety.lean ====
section
/-! DEFINITION. What counts as a safe run: the host's duties (spec/70_reset_and_hazards.md R83 to R89), in the terms
claims use. -/

namespace Sys2Proof.Safety

open Sys2Proof.Machine

/-- `k` steps of the machine, stopping at the first that has no next state. -/
def runSteps : Nat → State → Host.Outcome State Fault Refusal
  | 0, s => .next s
  | k + 1, s =>
    match step s with
    | .next t => runSteps k t
    | .fault r => .fault r
    | .refused r => .refused r

/-- The coming port inputs keep the handshake of R87, given whether a command is in progress: no command is presented
while one is in progress. A reset ends what is in progress; an accepted command that the host does not wait for is in
progress at the next input, and so stays until an input waits. -/
def inputsKeepHandshake : Bool → List PortInput → Bool
  | _, [] => true
  | busy, p :: rest =>
    if p.rst then inputsKeepHandshake false rest
    else if p.cmdValid then !busy && inputsKeepHandshake (!p.awaitReady) rest
    else inputsKeepHandshake (busy && !p.awaitReady) rest

/-- The host of this state keeps the handshake from here on (R87). -/
def handshakeKept (s : State) : Bool := inputsKeepHandshake (!s.cmdReady) s.inputs

/-- The host may trust the result it reads: `cmd_ready` is high (R88) and `ERR` = 0 (R79, R89). -/
def resultTrusted (s : State) : Bool := s.cmdReady && !s.err

/-- Where a message stands in a conforming command sequence (R83 to R86). -/
inductive Phase where
  /-- No INIT yet. -/
  | fresh
  /-- INIT issued, no message bit fed. -/
  | started
  /-- Message bits fed. -/
  | feeding
  /-- FLUSH issued: `crc_out` is the result. -/
  | done
deriving DecidableEq, Repr

/-- The next phase, or none where the command breaks a duty: data or FLUSH before INIT (R83), SETPOLY after the first
message bit (R84, R86), anything but NOP after FLUSH and before the read (R85). -/
def Phase.next : Phase → Instr → Option Phase
  | ph, .nop => some ph
  | .fresh, .init => some .started
  | .fresh, .setpoly _ => some .fresh
  | .started, .init => some .started
  | .started, .setpoly _ => some .started
  | .started, .bit _ => some .feeding
  | .started, .byte _ => some .feeding
  | .started, .flush => some .done
  | .feeding, .init => some .started
  | .feeding, .bit _ => some .feeding
  | .feeding, .byte _ => some .feeding
  | .feeding, .flush => some .done
  | _, _ => none

/-- The phase after a sequence of commands, or none where one breaks a duty. -/
def Phase.after : Phase → List Instr → Option Phase
  | ph, [] => some ph
  | ph, i :: is => (ph.next i).bind (fun ph' => ph'.after is)

/-- The commands of one message, from before its INIT to the read of its result, by the duties of R83 to R86. -/
def conformingMessage (is : List Instr) : Bool := Phase.fresh.after is == some .done

end Sys2Proof.Safety
end

