-- ==== Sys2Proof/Certificates/Slice0/Obligations.lean ====
section
/-! DEFINITION. The statements for the provers, each from a numbered rule of spec/, and the few notions only they use. -/

namespace Sys2Proof.Claims

open Sys2Proof.Machine

/-- The round with steps 2c and 2d in the order R49 rules out: XOR first, then OR. -/
def roundXorFirst (r : Word) (b : Bit) (p : Word) : Word :=
  let t := if r.getLsbD 15 then (r <<< 1) ^^^ p else r <<< 1
  if b then t ||| 0x0001#16 else t

/-- The four steps of R48 on an accumulator of n bits that is never masked, `carry` taken from bit 15 (R50). -/
def wideRound {n : Nat} (acc : BitVec n) (b : Bit) (p : Word) : BitVec n :=
  let t := acc <<< 1
  let t := if b then t ||| 1#n else t
  if acc.getLsbD 15 then t ^^^ p.setWidth n else t

/-- A register value as a polynomial over GF(2): the sum of `v[i]·x^i` (R7). -/
noncomputable def valuePoly (v : Word) : Polynomial (ZMod 2) :=
  ∑ i ∈ Finset.range 16, if v.getLsbD i then Polynomial.X ^ i else 0

/-- `P(x) = x^16 + POLY(x)` (R63). -/
noncomputable def feedbackPoly (p : Word) : Polynomial (ZMod 2) := Polynomial.X ^ 16 + valuePoly p

/-- `M(x)`: the sum of `s_j·x^(k-1-j)` over a stream of k bits, its first bit the highest power (R64). -/
noncomputable def streamPoly (bs : List Bit) : Polynomial (ZMod 2) :=
  ∑ j ∈ Finset.range bs.length, if bs.getD j false then Polynomial.X ^ (bs.length - 1 - j) else 0

/-- Two messages of one length, XORed byte by byte (R61). -/
def xorMessages (m1 m2 : List Byte) : List Byte := List.zipWith (· ^^^ ·) m1 m2

/-- A message with bit i of byte j flipped (R67). -/
def flipMessageBit (m : List Byte) (j i : Nat) : List Byte := m.modify j (fun d => d ^^^ (1#8 <<< i))

/-- The bytes of the ASCII string "123456789" (spec/95_test_vectors.md V-MSG-3). -/
def checkString : List Byte := [0x31#8, 0x32#8, 0x33#8, 0x34#8, 0x35#8, 0x36#8, 0x37#8, 0x38#8, 0x39#8]

/-- A host that presents nothing and does not wait: time passes inside a command. -/
def lettingTimePass : PortInput := { rst := false, cmdValid := false, cmdIn := 0, awaitReady := false }

/-- A host that presents a word and does not wait for `cmd_ready`. -/
def presentWithoutWaiting (w : CmdWord) : PortInput :=
  { rst := false, cmdValid := true, cmdIn := w, awaitReady := false }

/-- The step from `s`, without reset, takes the word `w` to its end: `w` is in progress and the host waits (or drives
nothing), or `cmd_ready` is high and the host presents `w` and waits (logs 1, 2, 3, 8). -/
def completesNow (s : State) (w : CmdWord) : Prop :=
  (s.inProgress = some w ∧ ∀ p rest, s.inputs = p :: rest → p.cmdValid = false ∧ p.awaitReady = true) ∨
  (s.inProgress = none ∧ ∃ p rest, s.inputs = p :: rest ∧ p.cmdValid = true ∧ p.awaitReady = true ∧ p.cmdIn = w)

end Sys2Proof.Claims

open Sys2Proof Sys2Proof.Machine Sys2Proof.Safety Sys2Proof.Claims

/-! ### Reset -/

/-- R20: the reset values, and `cmd_ready` = 1. -/
def Obligations.ResetHoldsTheSpecValues : Prop :=
  State.reset.crc = 0xFFFF#16 ∧ State.reset.poly = 0x1021#16 ∧ State.reset.err = false ∧
    State.reset.cmdReady = true

/-- R80, R81: asserting `rst`, whatever else the ports carry and whatever is in progress, is a step from any state to the
reset state; no command is accepted in it and nothing of a command in progress survives. That the host's later inputs
and the model's count of free values stay is the model's choice (log 6). -/
def Obligations.ResetFromAnyState : Prop :=
  ∀ (s : State) (p : PortInput) (rest : List PortInput), s.inputs = p :: rest → p.rst = true →
    step s = .next
      { crc := 0xFFFF#16, poly := 0x1021#16, err := false, inProgress := none, inputs := rest, draws := s.draws }

/-! ### Encoding -/

/-- R38 to R42: a word decodes to a command exactly when it is that command's encoding, for every command and every
operand: no bit of an encoding is dropped and no second word has the same meaning. -/
def Obligations.DecodeInvertsEncode : Prop :=
  ∀ (w : CmdWord) (i : Instr), decode w = .legal i ↔ w = encode i

/-- spec/opcode_table.json against R42: a word is legal exactly when it fits a row; it fits at most one; and the row it
fits is its command's own. -/
def Obligations.LegalWordsAreTheTableRows : Prop :=
  (∀ w : CmdWord, (decode w).isIllegal = false ↔ ∃ r ∈ opcodeTable, r.fits w = true) ∧
  (∀ w : CmdWord, ∀ r1 ∈ opcodeTable, ∀ r2 ∈ opcodeTable, r1.fits w = true → r2.fits w = true → r1 = r2) ∧
  (∀ (w : CmdWord) (i : Instr), decode w = .legal i →
    ∀ r ∈ opcodeTable, r.fits w = true ↔ r.mnemonic = i.mnemonic)

/-- R41, R42: the decoding of every word, by the numbers its fields `RSV`, `OP` and `IMM16` make. -/
def Obligations.DecodeFollowsTheFields : Prop :=
  ∀ (w : CmdWord) (op rsv imm : Nat), op = w.toNat % 16 → rsv = w.toNat / 16 % 4096 → imm = w.toNat / 65536 →
    (rsv ≠ 0 → (decode w).isIllegal = true) ∧
    (6 ≤ op → (decode w).isIllegal = true) ∧
    (rsv = 0 →
      (op = 0 → imm = 0 → decode w = .legal .nop) ∧
      (op = 0 → imm ≠ 0 → (decode w).isIllegal = true) ∧
      (op = 1 → imm = 0 → decode w = .legal .init) ∧
      (op = 1 → imm ≠ 0 → (decode w).isIllegal = true) ∧
      (op = 2 → decode w = .legal (.setpoly (BitVec.ofNat 16 imm))) ∧
      (op = 3 → imm < 2 → decode w = .legal (.bit (imm == 1))) ∧
      (op = 3 → 2 ≤ imm → (decode w).isIllegal = true) ∧
      (op = 4 → imm < 256 → decode w = .legal (.byte (BitVec.ofNat 8 imm))) ∧
      (op = 4 → 256 ≤ imm → (decode w).isIllegal = true) ∧
      (op = 5 → imm = 0 → decode w = .legal .flush) ∧
      (op = 5 → imm ≠ 0 → (decode w).isIllegal = true))

/-- spec/95_test_vectors.md 2.1: words written out from R38 to R41, one or more per command, and illegal ones. -/
def Obligations.SampleWordsDecode : Prop :=
  decode 0x00000000#32 = .legal .nop ∧ decode 0x00000001#32 = .legal .init ∧
  decode 0x10210002#32 = .legal (.setpoly 0x1021#16) ∧ decode 0xFFFF0002#32 = .legal (.setpoly 0xFFFF#16) ∧
  decode 0x00000003#32 = .legal (.bit false) ∧ decode 0x00010003#32 = .legal (.bit true) ∧
  decode 0x00410004#32 = .legal (.byte 0x41#8) ∧ decode 0x00000005#32 = .legal .flush ∧
  (decode 0x00020003#32).isIllegal = true ∧ (decode 0x01410004#32).isIllegal = true ∧
  (decode 0x80000005#32).isIllegal = true ∧ (decode 0x00010001#32).isIllegal = true ∧
  (decode 0x00000010#32).isIllegal = true ∧ (decode 0x00008004#32).isIllegal = true ∧
  (decode 0x00000006#32).isIllegal = true ∧ (decode 0xFFFFFFFF#32).isIllegal = true ∧
  (decode 0x00010000#32).isIllegal = true

/-- R33: over a byte-wide transport a command word comes bits 7:0 first and bits 31:24 last. -/
def Obligations.CommandBytesAreLittleEndian : Prop :=
  ∀ (w : CmdWord) (rest : List Byte),
    decodeBytes (BitVec.ofNat 8 w.toNat :: BitVec.ofNat 8 (w.toNat / 256) :: BitVec.ofNat 8 (w.toNat / 65536) ::
      BitVec.ofNat 8 (w.toNat / 16777216) :: rest) = some (decode w, rest)

/-! ### The round -/

/-- R48: the four steps in their order, and the equivalent form `{r[14:0], b} ^ (carry ? p : 0x0000)`. -/
def Obligations.RoundIsShiftInputAndFeedback : Prop :=
  ∀ (r : Word) (b : Bit) (p : Word),
    (crcRound r b p =
      (let carry := r.getLsbD 15
       let t := BitVec.ofNat 16 (r.toNat * 2)
       let t := if b then t ||| 0x0001#16 else t
       if carry then t ^^^ p else t)) ∧
    crcRound r b p = (r.extractLsb' 0 15 ++ BitVec.ofBool b) ^^^ (if r.getLsbD 15 then p else 0x0000#16)

/-- R49: bit 0 of the result is `b ^ (carry & p[0])`; in the other order it would be `b | (carry & p[0])`; the orders
differ exactly when b, carry and `p[0]` are all 1; the rule's example. -/
def Obligations.RoundOrsTheInputBeforeFeedback : Prop :=
  (∀ (r : Word) (b : Bit) (p : Word),
    (crcRound r b p).getLsbD 0 = (b ^^ (r.getLsbD 15 && p.getLsbD 0)) ∧
    (roundXorFirst r b p).getLsbD 0 = (b || (r.getLsbD 15 && p.getLsbD 0)) ∧
    (crcRound r b p ≠ roundXorFirst r b p ↔ (b = true ∧ r.getLsbD 15 = true ∧ p.getLsbD 0 = true))) ∧
  crcRound 0x8000#16 true 0x1021#16 = 0x1020#16 ∧ roundXorFirst 0x8000#16 true 0x1021#16 = 0x1021#16

/-- R50: an accumulator of 17 bits or more that is never masked holds the masked register in its low 16 bits after any
number of rounds, and so gives the same `carry`. -/
def Obligations.MaskedAndWideRoundsAgree : Prop :=
  ∀ (n : Nat), 17 ≤ n → ∀ (acc : BitVec n) (bs : List Bit) (p : Word),
    (bs.foldl (fun a b => wideRound a b p) acc).setWidth 16 = absorbBits (acc.setWidth 16) bs p ∧
    (bs.foldl (fun a b => wideRound a b p) acc).getLsbD 15 = (absorbBits (acc.setWidth 16) bs p).getLsbD 15

/-- R51: the next-state equation of each stage, and the taps of 0x1021. -/
def Obligations.TapEquations : Prop :=
  ∀ (r : Word) (b : Bit),
    (∀ p : Word, (crcRound r b p).getLsbD 0 = (b ^^ (r.getLsbD 15 && p.getLsbD 0)) ∧
      ∀ i, 1 ≤ i → i ≤ 15 →
        (crcRound r b p).getLsbD i = (r.getLsbD (i - 1) ^^ (r.getLsbD 15 && p.getLsbD i))) ∧
    (crcRound r b 0x1021#16).getLsbD 0 = (b ^^ r.getLsbD 15) ∧
    (crcRound r b 0x1021#16).getLsbD 5 = (r.getLsbD 4 ^^ r.getLsbD 15) ∧
    (crcRound r b 0x1021#16).getLsbD 12 = (r.getLsbD 11 ^^ r.getLsbD 15) ∧
    (∀ i, 1 ≤ i → i ≤ 15 → i ≠ 5 → i ≠ 12 → (crcRound r b 0x1021#16).getLsbD i = r.getLsbD (i - 1))

/-! ### The commands, each rule whole -/

/-- R70: NOP is the word 0 exactly, completes, and changes nothing; a word with `OP` = 0 and any other bit set is
ILLEGAL; a NOP inside a command sequence does not change what the sequence does; the rule's example. -/
def Obligations.NopCompletesUnchanged : Prop :=
  decode 0x00000000#32 = .legal .nop ∧
  (∀ s : State, exec .nop s = .next s) ∧
  (∀ (w : CmdWord) (s : State), w.toNat % 16 = 0 → w ≠ 0 → execute w s = .next { s with err := true }) ∧
  (∀ (before after : List CmdWord) (s : State),
    executeAll (before ++ [0x00000000#32] ++ after) s = executeAll (before ++ after) s) ∧
  (∀ s : State, s.crc = 0xE1B1#16 → ∃ t, exec .nop s = .next t ∧ t.crc = 0xE1B1#16)

/-- R52: INIT completes with `CRC` = 0xFFFF and nothing else changed; any other word with `OP` = 1 is ILLEGAL and does
not initialise; INIT discards all that was absorbed, twice is once, and INIT and SETPOLY commute; the example. -/
def Obligations.InitCompletesWithAllOnes : Prop :=
  decode 0x00000001#32 = .legal .init ∧
  (∀ s : State, exec .init s = .next { s with crc := 0xFFFF#16 }) ∧
  (∀ (w : CmdWord) (s : State), w.toNat % 16 = 1 → w ≠ 1 → execute w s = .next { s with err := true }) ∧
  (∀ (s : State) (bs : List Bit),
    executeAll (.map encode (.init :: (bs.map .bit ++ [.init]))) s = executeAll [encode .init] s) ∧
  (∀ s : State, executeAll [encode .init, encode .init] s = executeAll [encode .init] s) ∧
  (∀ (s : State) (p : Word),
    executeAll [encode .init, encode (.setpoly p)] s = executeAll [encode (.setpoly p), encode .init] s) ∧
  (∀ s : State, s.crc = 0x1234#16 → ∃ t, exec .init s = .next t ∧ t.crc = 0xFFFF#16)

/-- R53: BIT completes with `CRC` = `Round(CRC, b, POLY)` and nothing else changed; a word with `OP` = 3 and a forbidden
bit set is ILLEGAL and does no round; the corner cases; the example. -/
def Obligations.BitCompletesWithOneRound : Prop :=
  (∀ b : Bit, decode ((BitVec.setWidth 32 (BitVec.ofBool b) <<< 16) ||| 0x00000003#32) = .legal (.bit b)) ∧
  (∀ (b : Bit) (s : State), exec (.bit b) s = .next { s with crc := crcRound s.crc b s.poly }) ∧
  (∀ (w : CmdWord) (s : State), w.toNat % 16 = 3 → (w.extractLsb' 17 15 ≠ 0 ∨ w.extractLsb' 4 12 ≠ 0) →
    execute w s = .next { s with err := true }) ∧
  (∀ s : State, s.crc = 0 → exec (.bit false) s = .next s) ∧
  (∀ (b : Bit) (s : State), s.poly = 0 →
    exec (.bit b) s = .next { s with crc := s.crc.extractLsb' 0 15 ++ BitVec.ofBool b }) ∧
  (∀ (b : Bit) (s t : State), exec (.bit b) s = .next t →
    t.crc.getLsbD 0 = (b ^^ (s.crc.getLsbD 15 && s.poly.getLsbD 0))) ∧
  (∀ s : State, s.crc = 0xFFFF#16 → s.poly = 0x1021#16 →
    exec (.bit false) s = .next { s with crc := 0xEFDF#16 })

/-- R54: BYTE completes with the eight rounds of `d[7]`, …, `d[0]` and nothing else changed; a word with `OP` = 4 and a
forbidden bit set is ILLEGAL and does no round; from `CRC` = 0 the byte just shifts in; the example. -/
def Obligations.ByteCompletesWithEightRounds : Prop :=
  (∀ d : Byte, decode ((BitVec.setWidth 32 d <<< 16) ||| 0x00000004#32) = .legal (.byte d)) ∧
  (∀ (d : Byte) (s : State), exec (.byte d) s =
    .next { s with crc := [7, 6, 5, 4, 3, 2, 1, 0].foldl (fun r i => crcRound r (d.getLsbD i) s.poly) s.crc }) ∧
  (∀ (w : CmdWord) (s : State), w.toNat % 16 = 4 → (w.extractLsb' 24 8 ≠ 0 ∨ w.extractLsb' 4 12 ≠ 0) →
    execute w s = .next { s with err := true }) ∧
  (∀ (d : Byte) (s : State), s.crc = 0 → exec (.byte d) s = .next { s with crc := d.setWidth 16 }) ∧
  (∀ s : State, s.crc = 0xFFFF#16 → s.poly = 0x1021#16 →
    exec (.byte 0x41#8) s = .next { s with crc := 0xE1B1#16 })

/-- R55: FLUSH completes with sixteen rounds of bit 0 and nothing else changed; any other word with `OP` = 5 is ILLEGAL
and does no round; 0 stays 0 under every `POLY`, `POLY` = 0 gives 0 from every `CRC`; FLUSH is not idempotent; the
example. -/
def Obligations.FlushCompletesWithSixteenZeroRounds : Prop :=
  decode 0x00000005#32 = .legal .flush ∧
  (∀ s : State, exec .flush s = .next { s with crc := (fun r => crcRound r false s.poly)^[16] s.crc }) ∧
  (∀ (w : CmdWord) (s : State), w.toNat % 16 = 5 → w ≠ 5 → execute w s = .next { s with err := true }) ∧
  (∀ s : State, s.crc = 0 → exec .flush s = .next s) ∧
  (∀ s : State, s.poly = 0 → exec .flush s = .next { s with crc := 0 }) ∧
  (∃ s : State, executeAll [encode .flush, encode .flush] s ≠ executeAll [encode .flush] s) ∧
  (∀ s : State, s.crc = 0xFFFF#16 → s.poly = 0x1021#16 → exec .flush s = .next { s with crc := 0x1D0F#16 })

/-- R69: SETPOLY completes with `POLY` = p, for every p, and nothing else changed; a word with `OP` = 2 and a bit of
`RSV` set is ILLEGAL and does not write; p = 0 makes every CRC 0; twice is once; it commutes with INIT; later rounds use
the new value; the example. -/
def Obligations.SetpolyCompletesWithThePolynomial : Prop :=
  (∀ p : Word, decode ((BitVec.setWidth 32 p <<< 16) ||| 0x00000002#32) = .legal (.setpoly p)) ∧
  (∀ (p : Word) (s : State), exec (.setpoly p) s = .next { s with poly := p }) ∧
  (∀ (w : CmdWord) (s : State), w.toNat % 16 = 2 → w.extractLsb' 4 12 ≠ 0 →
    execute w s = .next { s with err := true }) ∧
  (∀ buf : List Byte, crc16 buf 0 = 0) ∧
  (∀ (p : Word) (s : State),
    executeAll [encode (.setpoly p), encode (.setpoly p)] s = executeAll [encode (.setpoly p)] s) ∧
  (∀ (p : Word) (s : State),
    executeAll [encode (.setpoly p), encode .init] s = executeAll [encode .init, encode (.setpoly p)] s) ∧
  (∀ (p q : Word) (as bs : List Bit) (s : State), s.poly = p →
    executeAll (.map encode (as.map .bit ++ [.setpoly q] ++ bs.map .bit)) s =
      .next { s with crc := absorbBits (absorbBits s.crc as p) bs q, poly := q }) ∧
  (∀ s : State, s.poly = 0x1021#16 → exec (.setpoly 0x8005#16) s = .next { s with poly := 0x8005#16 })

/-- R19: what each command writes and leaves alone. Every command completes; `ERR`, the handshake, the host's inputs
and the count of free values stay; `POLY` changes under SETPOLY alone, `CRC` under INIT, BIT, BYTE and FLUSH alone. The
CORE has no memory and no other register (R14, R22). -/
def Obligations.CommandFrame : Prop :=
  ∀ (i : Instr) (s : State), ∃ t, exec i s = .next t ∧
    t.err = s.err ∧ t.inProgress = s.inProgress ∧ t.inputs = s.inputs ∧ t.draws = s.draws ∧
    ((∀ p, i ≠ .setpoly p) → t.poly = s.poly) ∧
    ((i = .nop ∨ ∃ p, i = .setpoly p) → t.crc = s.crc)

/-- R19: the access matrix. Writes: as in the table's last column. Reads: what NOP, INIT, SETPOLY, an illegal word and
reset write depends on no register; what BIT, BYTE and FLUSH write depends on `CRC` and `POLY` alone. -/
def Obligations.AccessMatrix : Prop :=
  (∀ s : State, exec .nop s = .next s) ∧
  (∀ s1 s2 : State, ∃ v : Word, exec .init s1 = .next { s1 with crc := v } ∧
    exec .init s2 = .next { s2 with crc := v }) ∧
  (∀ (p : Word) (s1 s2 : State), ∃ v : Word, exec (.setpoly p) s1 = .next { s1 with poly := v } ∧
    exec (.setpoly p) s2 = .next { s2 with poly := v }) ∧
  (∀ (i : Instr) (s1 s2 : State), (i = .flush ∨ (∃ b, i = .bit b) ∨ ∃ d, i = .byte d) →
    s1.crc = s2.crc → s1.poly = s2.poly →
    ∃ v : Word, exec i s1 = .next { s1 with crc := v } ∧ exec i s2 = .next { s2 with crc := v }) ∧
  (∀ (w : CmdWord) (s : State), (decode w).isIllegal = true → execute w s = .next { s with err := true }) ∧
  (∀ (s1 s2 : State), s1.applyReset.crc = s2.applyReset.crc ∧ s1.applyReset.poly = s2.applyReset.poly ∧
    s1.applyReset.err = s2.applyReset.err) ∧
  (∀ (s : State) (p : PortInput), p.rst = true → drive p s = .next s.applyReset)

/-! ### The exception -/

/-- R72: an illegal word sets `ERR` and changes nothing else; a legal one is performed by its rule. At a step the
illegal word is consumed, and `cmd_ready` is high for the next command. -/
def Obligations.IllegalWordOnlySetsErr : Prop :=
  (∀ (w : CmdWord) (s : State), (decode w).isIllegal = true → execute w s = .next { s with err := true }) ∧
  (∀ (w : CmdWord) (i : Instr) (s : State), decode w = .legal i → execute w s = exec i s) ∧
  (∀ (w : CmdWord) (s : State) (rest : List PortInput), (decode w).isIllegal = true → s.inProgress = none →
    s.inputs = .command w :: rest → step s = .next { s with err := true, inputs := rest })

/-- R13, R75: `ERR` stays 1 in every step but a reset, which clears it; it becomes 1 only in a step that executes an
illegal word, be it presented now or held in progress. -/
def Obligations.ErrIsStickyUntilReset : Prop :=
  ∀ s t : State, step s = .next t →
    ((∃ p rest, s.inputs = p :: rest ∧ p.rst = true) → t.err = false) ∧
    ((∀ p rest, s.inputs = p :: rest → p.rst = false) →
      (s.err = true → t.err = true) ∧
      (s.err = false → t.err = true → ∃ w, (decode w).isIllegal = true ∧
        (s.inProgress = some w ∨
          (s.inProgress = none ∧ ∃ p rest, s.inputs = p :: rest ∧ p.cmdValid = true ∧ p.cmdIn = w))))

/-- R11, R12, R13, R19: what a step without reset may write. Only INIT, BIT, BYTE and FLUSH, taken to their end in it,
change `CRC`; only SETPOLY, taken to its end in it, changes `POLY`, and to its operand; where no word is taken to its end,
the three registers stay; where one is, they are what executing it gives. (A step with reset is ResetFromAnyState.) Which
step takes a word to its end is the model's choice (logs 1, 2, 3, 8). -/
def Obligations.OnlyTheirCommandsWriteTheRegisters : Prop :=
  ∀ s t : State, step s = .next t → (∀ p rest, s.inputs = p :: rest → p.rst = false) →
    (t.crc ≠ s.crc → ∃ w i, completesNow s w ∧ decode w = .legal i ∧
      (i = .init ∨ (∃ b, i = .bit b) ∨ (∃ d, i = .byte d) ∨ i = .flush)) ∧
    (t.poly ≠ s.poly → ∃ w, completesNow s w ∧ decode w = .legal (.setpoly t.poly)) ∧
    ((∀ w, ¬ completesNow s w) → t.crc = s.crc ∧ t.poly = s.poly ∧ t.err = s.err) ∧
    (∀ w, completesNow s w → ∃ u, execute w s = .next u ∧ t.crc = u.crc ∧ t.poly = u.poly ∧ t.err = u.err)

/-- R16, R34: with `cmd_ready` high, a step in which no command is presented (or the host drives nothing) and no reset is
asserted leaves everything but the host's inputs as it was, and every output reads as before. That such a step exists,
and that an empty list of inputs is a host that drives nothing, is the model's choice (logs 1, 2). -/
def Obligations.RegistersHoldBetweenCommands : Prop :=
  ∀ s : State, s.inProgress = none →
    (s.inputs = [] ∨ ∃ p rest, s.inputs = p :: rest ∧ p.rst = false ∧ p.cmdValid = false) →
    step s = .next { s with inputs := s.inputs.tail } ∧ ∀ t, step s = .next t → t.outputs = s.outputs

/-- R72, R73, R75, R89: any sequence of words, legal or not, completes; at its end `ERR` is 1 exactly when it was 1 or
some word was illegal; and all else is as if the illegal words had not been there. -/
def Obligations.IllegalWordsAreDroppedAndRecorded : Prop :=
  ∀ (ws : List CmdWord) (s : State), ∃ t, executeAll ws s = .next t ∧
    t.err = (s.err || ws.any (fun w => (decode w).isIllegal)) ∧
    executeAll (ws.filter (fun w => !(decode w).isIllegal)) s = .next { t with err := s.err }

/-! ### The step and the handshake -/

/-- R15, R42: a word presented while `cmd_ready` is high, by a host that waits, that decodes to i: the step is exec of i
on the state whose inputs have moved on by one. -/
def Obligations.StepRunsTheDecodedCommand : Prop :=
  ∀ (s : State) (p : PortInput) (rest : List PortInput) (i : Instr),
    s.inProgress = none → s.inputs = p :: rest → p.rst = false → p.cmdValid = true → p.awaitReady = true →
    decode p.cmdIn = .legal i → step s = exec i { s with inputs := rest }

/-- The host's placing of a table word (log 9): if the decoder reads i from it, the very next step is exec of i. -/
def Obligations.FetchWordRunsNext : Prop :=
  ∀ (s : State) (nbits w : Nat) (i : Instr), decodeTableWord nbits w = some i →
    step (s.withFetchWord nbits w) = exec i { s with inProgress := none }

/-- R79, R87: no step faults, and a step is refused exactly when the host, without reset, presents a command while one
is in progress. The model's choices in it: that the refusal names the presented word (log 5), and that an illegal word is
a next state with `ERR` = 1 and no fault outcome (log 16). -/
def Obligations.StepStopsOnlyOnABrokenHandshake : Prop :=
  ∀ s : State, (∀ f, step s ≠ .fault f) ∧
    ∀ r, step s = .refused r ↔ ∃ w p rest, s.inProgress = some w ∧ s.inputs = p :: rest ∧ p.rst = false ∧
      p.cmdValid = true ∧ r = .commandWhileBusy p.cmdIn

/-- R87: from every state whose host keeps the handshake the machine has a next state, and its host keeps the handshake
still. The predicate is the model's reading of R87 over its list of inputs (logs 1, 2, 3, 8). -/
def Obligations.HandshakeIsKeptAndNeverStops : Prop :=
  ∀ s : State, handshakeKept s = true → ∃ t, step s = .next t ∧ handshakeKept t = true

/-- The reset state meets that invariant. This is the model's choice: it holds because the list of inputs is empty at
reset (log 9). -/
def Obligations.ResetKeepsTheHandshake : Prop := handshakeKept State.reset = true

/-- R34, R87, R90: after a step in which the host waited (or drove nothing), `cmd_ready` is high; after a step in which
the host presented a word and did not wait, that word is in progress and CRC, POLY and ERR are as before. The model's
choices in it: the host's waiting as a part of what it drives (log 1), the held word, none of whose effect is in the
registers (log 3), and that this one step completes a held command (logs 2 and 8). -/
def Obligations.ReadyRisesWhenAwaited : Prop :=
  ∀ s t : State, step s = .next t →
    ((∀ p rest, s.inputs = p :: rest → p.awaitReady = true) → t.cmdReady = true) ∧
    (∀ p rest, s.inputs = p :: rest → p.rst = false → p.cmdValid = true → p.awaitReady = false →
      t.inProgress = some p.cmdIn ∧ t.crc = s.crc ∧ t.poly = s.poly ∧ t.err = s.err)

/-- R34, R87, R90: a command that is held in progress for any number of steps, and then completes, has in the end the
effect it has as one atomic step. The model's choices in it: the host's waiting (log 1), the held word (log 3), that a
waited step completes it (log 8), and the count of free values that has moved on (log 4). -/
def Obligations.HeldCommandCompletesAtomically : Prop :=
  ∀ (s : State) (w : CmdWord) (n : Nat) (rest : List PortInput), s.inProgress = none →
    s.inputs = presentWithoutWaiting w :: (List.replicate n lettingTimePass ++ .idle :: rest) →
    runSteps (n + 2) s = execute w { s with inputs := rest, draws := s.draws + (n + 1) }

/-- R16: between commands the outputs show the registers, and `cmd_ready` is high exactly when no accepted command is
still in progress. -/
def Obligations.OutputsShowTheRegisters : Prop :=
  ∀ s : State, (s.outputs.cmdReady = true ↔ s.inProgress = none) ∧
    (s.inProgress = none → s.outputs.crcOut = s.crc ∧ s.outputs.polyOut = s.poly ∧ s.outputs.errOut = s.err)

/-- R35: words presented one after the other by a host that waits take effect in that order, each on the state the
earlier ones left, one step each. -/
def Obligations.CommandsRunInAcceptanceOrder : Prop :=
  ∀ (ws : List CmdWord) (s : State) (rest : List PortInput), s.inProgress = none →
    s.inputs = ws.map .command ++ rest →
    runSteps ws.length s = executeAll ws { s with inputs := rest }

/-- R34: NOP, INIT, SETPOLY with one operand, and an illegal word have issued twice the effect they have issued once;
BIT, BYTE and FLUSH have not in general. -/
def Obligations.RepeatedCommands : Prop :=
  (∀ (w : CmdWord) (s : State), (decode w).isIllegal = true ∨ decode w = .legal .nop ∨ decode w = .legal .init ∨
    (∃ p, decode w = .legal (.setpoly p)) → executeAll [w, w] s = executeAll [w] s) ∧
  (∃ s : State, executeAll [encode (.bit true), encode (.bit true)] s ≠ executeAll [encode (.bit true)] s) ∧
  (∃ s : State, executeAll [encode (.byte 0x41#8), encode (.byte 0x41#8)] s ≠ executeAll [encode (.byte 0x41#8)] s) ∧
  (∃ s : State, executeAll [encode .flush, encode .flush] s ≠ executeAll [encode .flush] s)

/-! ### Whole messages -/

/-- R24: bits enter most significant first within a byte, and bytes in buffer order: bit i of the stream's byte j is
`Buf[j][7-i]`, and a message of n bytes has 8·n bits. -/
def Obligations.MessageBitsAreMsbFirst : Prop :=
  ∀ buf : List Byte, (messageBits buf).length = 8 * buf.length ∧
    ∀ (j i : Nat) (d : Byte), buf[j]? = some d → i < 8 → (messageBits buf)[8 * j + i]? = some (d.getLsbD (7 - i))

/-- R57: from any state with no command in progress, the sequence SETPOLY p, INIT, the BYTEs of any buffer, FLUSH runs
to its end with `CRC` = `crc16(Buf, p)` and `ERR` unchanged; and without the SETPOLY, with `POLY` as it stands. -/
def Obligations.CoreComputesCrc16 : Prop :=
  ∀ (s : State) (p : Word) (buf : List Byte) (rest : List PortInput), s.inProgress = none →
    (s.inputs = presentAll (.setpoly p :: messageCommands buf) ++ rest →
      runSteps (buf.length + 3) s = .next { s with crc := crc16 buf p, poly := p, inputs := rest }) ∧
    (s.inputs = presentAll (messageCommands buf) ++ rest →
      runSteps (buf.length + 2) s = .next { s with crc := crc16 buf s.poly, inputs := rest })

/-- R58: the empty buffer gives the flush of 0xFFFF, which is 0x1D0F under 0x1021. -/
def Obligations.EmptyMessage : Prop :=
  (∀ p : Word, crc16 [] p = (fun r => crcRound r false p)^[16] 0xFFFF#16) ∧ crc16 [] 0x1021#16 = 0x1D0F#16

/-- R83 to R85, R59: after a message whose commands keep the host's duties, `CRC` depends on those commands and on the
`POLY` they found, and on nothing else of the state before; `ERR` is as it was. What the duties allow is the model's
reading of them (log 20). -/
def Obligations.ConformingMessageIgnoresHistory : Prop :=
  ∀ (is : List Instr), conformingMessage is = true → ∀ s1 s2 : State, s1.poly = s2.poly →
    ∃ t1 t2, executeAll (is.map encode) s1 = .next t1 ∧ executeAll (is.map encode) s2 = .next t2 ∧
      t1.crc = t2.crc ∧ t1.poly = t2.poly ∧ t1.err = s1.err ∧ t2.err = s2.err

/-- R60: `byte d` leaves the state of its eight BITs, `flush` that of sixteen `bit 0`, and `crc16` can be computed bit by
bit. -/
def Obligations.BitwiseEquivalents : Prop :=
  (∀ (d : Byte) (s : State), executeAll [encode (.byte d)] s =
    executeAll ([d.getLsbD 7, d.getLsbD 6, d.getLsbD 5, d.getLsbD 4, d.getLsbD 3, d.getLsbD 2, d.getLsbD 1,
      d.getLsbD 0].map (fun b => encode (.bit b))) s) ∧
  (∀ s : State, executeAll [encode .flush] s = executeAll (List.replicate 16 (encode (.bit false))) s) ∧
  (∀ (buf : List Byte) (s : State),
    executeAll (encode .init :: ((messageBits buf).map (fun b => encode (.bit b)) ++
      List.replicate 16 (encode (.bit false)))) s = .next { s with crc := crc16 buf s.poly })

/-- R61: the round is linear over GF(2) in register and bit, and `crc16` of the XOR of two messages of one length is the
XOR of their CRCs and of the CRC of as many zero bytes. -/
def Obligations.RoundAndCrcAreLinear : Prop :=
  (∀ (r1 r2 : Word) (b1 b2 : Bit) (p : Word),
    crcRound (r1 ^^^ r2) (b1 ^^ b2) p = crcRound r1 b1 p ^^^ crcRound r2 b2 p) ∧
  (∀ (m1 m2 : List Byte) (p : Word), m1.length = m2.length →
    crc16 (xorMessages m1 m2) p = crc16 m1 p ^^^ crc16 m2 p ^^^ crc16 (List.replicate m1.length 0#8) p)

/-- R63: as polynomials over GF(2), a round is multiplication by x, addition of the bit, and the remainder by
`P(x) = x^16 + POLY(x)`. -/
def Obligations.RoundMultipliesByX : Prop :=
  ∀ (r : Word) (b : Bit) (p : Word),
    valuePoly (crcRound r b p) =
      (Polynomial.X * valuePoly r + (if b then 1 else 0)).modByMonic (feedbackPoly p) ∧
    (feedbackPoly p).Monic

/-- R64: the closed form: `crc16(M, POLY) = (I(x)·x^(8n+16) + M(x)·x^16) mod P(x)`. -/
def Obligations.ClosedForm : Prop :=
  ∀ (buf : List Byte) (p : Word),
    valuePoly (crc16 buf p) =
      (valuePoly 0xFFFF#16 * Polynomial.X ^ (8 * buf.length + 16) +
        streamPoly (messageBits buf) * Polynomial.X ^ 16).modByMonic (feedbackPoly p)

/-- R65: `crc16` is the direct form started from the flush of 0xFFFF, 0x1D0F under 0x1021, and not the one started from
0xFFFF: for "123456789" they give 0xE5CC and 0x29B1. -/
def Obligations.DirectFormEquivalence : Prop :=
  (∀ (buf : List Byte) (p : Word), crc16 buf p = directForm buf p (flushRounds 0xFFFF#16 p)) ∧
  flushRounds 0xFFFF#16 0x1021#16 = 0x1D0F#16 ∧
  (∀ buf : List Byte, crc16 buf 0x1021#16 = directForm buf 0x1021#16 0x1D0F#16) ∧
  crc16 checkString 0x1021#16 = 0xE5CC#16 ∧ directForm checkString 0x1021#16 0xFFFF#16 = 0x29B1#16

/-- R66: the three values that show that trailing zero bytes are not neutral, and the augmentation by 16 zero bits that
the flush is. -/
def Obligations.TrailingZerosMatter : Prop :=
  crc16 [] 0x1021#16 = 0x1D0F#16 ∧ crc16 [0x00#8] 0x1021#16 = 0xCC9C#16 ∧
  crc16 [0x00#8, 0x00#8] 0x1021#16 = 0x84C0#16 ∧
  (∀ (buf : List Byte) (p : Word),
    crc16 buf p = absorbBits 0xFFFF#16 (messageBits buf ++ List.replicate 16 false) p)

/-- R67: flipping any one bit of a message changes its CRC under every `POLY` but 0, under which every CRC is 0. -/
def Obligations.SingleBitErrorsAreDetected : Prop :=
  (∀ (m : List Byte) (p : Word) (j i : Nat), p ≠ 0 → j < m.length → i < 8 →
    crc16 m p ≠ crc16 (flipMessageBit m j i) p) ∧
  (∀ m : List Byte, crc16 m 0 = 0)

/-- R68: a message followed by its CRC, high byte first, has the CRC 0; in the other order not in general:
"123456789" gives 0x0935. -/
def Obligations.ResidueIsZero : Prop :=
  (∀ (m : List Byte) (p c : Word), c = crc16 m p →
    crc16 (m ++ [c.extractLsb' 8 8, c.extractLsb' 0 8]) p = 0) ∧
  crc16 (checkString ++ [0xCC#8, 0xE5#8]) 0x1021#16 = 0x0935#16

/-- R85: what reading before the FLUSH, flushing twice, and a NOP before the FLUSH give for "123456789". -/
def Obligations.FlushOnceThenRead : Prop :=
  ∀ s : State, s.poly = 0x1021#16 →
    executeAll (.map encode (.init :: checkString.map .byte)) s = .next { s with crc := 0xA69D#16 } ∧
    executeAll (.map encode (messageCommands checkString)) s = .next { s with crc := 0xE5CC#16 } ∧
    executeAll (.map encode (messageCommands checkString ++ [.flush])) s = .next { s with crc := 0xF787#16 } ∧
    executeAll (.map encode (.init :: (checkString.map .byte ++ [.nop, .flush]))) s = .next { s with crc := 0xE5CC#16 }

/-- R86: SETPOLY between the bytes of a message splits it: the earlier rounds use the old polynomial, the later rounds
and the FLUSH the new one; P7's result is `crc16` under neither. -/
def Obligations.SetpolySplitsAMessage : Prop :=
  (∀ (first second : List Byte) (q : Word) (s : State),
    executeAll (.map encode (.init :: (first.map .byte ++ [.setpoly q] ++ second.map .byte ++ [.flush]))) s =
      .next ((s.writePoly q).writeCrc
        (absorbBits (absorbBits 0xFFFF#16 (messageBits first) s.poly)
          (messageBits second ++ List.replicate 16 false) q))) ∧
  (∀ s : State, s.poly = 0x1021#16 → ∃ t,
    executeAll (.map encode [.init, .byte 0x41#8, .setpoly 0x8005#16, .byte 0x42#8, .flush]) s = .next t ∧
      t.crc = 0xAA12#16 ∧ t.crc ≠ crc16 [0x41#8, 0x42#8] 0x1021#16 ∧ t.crc ≠ crc16 [0x41#8, 0x42#8] 0x8005#16)

/-! ### The host's helpers -/

/-- R26, R27: the stores write least significant byte first and leave the later bytes alone; the rules' examples. -/
def Obligations.StoresAreLittleEndian : Prop :=
  (∀ (v : BitVec 16) (buf : List Byte), 2 ≤ buf.length → ∃ out, store16 v buf = .ok out ∧
    out.length = buf.length ∧ out[0]? = some (BitVec.ofNat 8 v.toNat) ∧
    out[1]? = some (BitVec.ofNat 8 (v.toNat / 256)) ∧ ∀ i, 2 ≤ i → out[i]? = buf[i]?) ∧
  (∀ (v : BitVec 32) (buf : List Byte), 4 ≤ buf.length → ∃ out, store32 v buf = .ok out ∧
    out.length = buf.length ∧ out[0]? = some (BitVec.ofNat 8 v.toNat) ∧
    out[1]? = some (BitVec.ofNat 8 (v.toNat / 256)) ∧ out[2]? = some (BitVec.ofNat 8 (v.toNat / 65536)) ∧
    out[3]? = some (BitVec.ofNat 8 (v.toNat / 16777216)) ∧ ∀ i, 4 ≤ i → out[i]? = buf[i]?) ∧
  store16 0x1234#16 [0#8, 0#8] = .ok [0x34#8, 0x12#8] ∧
  store32 0x12345678#32 [0#8, 0#8, 0#8, 0#8] = .ok [0x78#8, 0x56#8, 0x34#8, 0x12#8]

/-- R28, R29: the loads read little-endian; the rules' examples. -/
def Obligations.LoadsAreLittleEndian : Prop :=
  (∀ (b0 b1 : Byte) (rest : List Byte), ∃ v, load16 (b0 :: b1 :: rest) = .ok v ∧
    v.toNat = b0.toNat + 256 * b1.toNat) ∧
  (∀ (b0 b1 b2 b3 : Byte) (rest : List Byte), ∃ v, load32 (b0 :: b1 :: b2 :: b3 :: rest) = .ok v ∧
    v.toNat = b0.toNat + 256 * b1.toNat + 65536 * b2.toNat + 16777216 * b3.toNat) ∧
  load16 [0xCD#8, 0xAB#8] = .ok 0xABCD#16 ∧ load32 [0x01#8, 0x02#8, 0x03#8, 0x04#8] = .ok 0x04030201#32

/-- R30: a helper given a buffer shorter than it needs faults, with no value and no buffer written. That the fault names
the length needed and the length given is the model's choice (log 18). -/
def Obligations.ShortBuffersFault : Prop :=
  (∀ (v : BitVec 16) (buf : List Byte), buf.length < 2 →
    store16 v buf = .error (.shortBuffer 2 buf.length) ∧ load16 buf = .error (.shortBuffer 2 buf.length)) ∧
  (∀ (v : BitVec 32) (buf : List Byte), buf.length < 4 →
    store32 v buf = .error (.shortBuffer 4 buf.length) ∧ load32 buf = .error (.shortBuffer 4 buf.length))

/-- R31: loading what was stored gives it back, in every buffer that is long enough. -/
def Obligations.LoadAfterStore : Prop :=
  (∀ (v : BitVec 16) (buf : List Byte), 2 ≤ buf.length → (store16 v buf).bind load16 = .ok v) ∧
  (∀ (v : BitVec 32) (buf : List Byte), 4 ≤ buf.length → (store32 v buf).bind load32 = .ok v)

/-- R32, D20: the result's two bytes under either value of the platform's parameter: `store16`'s order, or the order
that R68 needs. -/
def Obligations.SerialisedResult : Prop :=
  ∀ c : Word, store16 c [0#8, 0#8] = .ok (serialiseResult .le c) ∧
    (∀ (m : List Byte) (p : Word), c = crc16 m p → crc16 (m ++ serialiseResult .be c) p = 0)

/-! ### The assembler -/

/-- R45: the word of each line with its operand in range, as the number its table gives; an operand out of range is
rejected and encodes nothing; `.word` gives its word, legal or not. The pseudo-instructions of R46 and R47 are rejected
too when an operand is out of the range those rules give: that R45's rejection covers them is inferred (log 12). -/
def Obligations.AssemblerEncodesLines : Prop :=
  AsmLine.assemble .nop = some [0x00000000#32] ∧ AsmLine.assemble .init = some [0x00000001#32] ∧
  AsmLine.assemble .flush = some [0x00000005#32] ∧
  (∀ p, p ≤ 0xFFFF → AsmLine.assemble (.setpoly p) = some [BitVec.ofNat 32 (p * 65536 + 2)]) ∧
  (∀ b, b ≤ 1 → AsmLine.assemble (.bit b) = some [BitVec.ofNat 32 (b * 65536 + 3)]) ∧
  (∀ d, d ≤ 0xFF → AsmLine.assemble (.byte d) = some [BitVec.ofNat 32 (d * 65536 + 4)]) ∧
  (∀ w, w ≤ 0xFFFFFFFF → AsmLine.assemble (.word w) = some [BitVec.ofNat 32 w]) ∧
  (∀ p, 0xFFFF < p → AsmLine.assemble (.setpoly p) = none) ∧
  (∀ b, 1 < b → AsmLine.assemble (.bit b) = none) ∧
  (∀ d, 0xFF < d → AsmLine.assemble (.byte d) = none) ∧
  (∀ w, 0xFFFFFFFF < w → AsmLine.assemble (.word w) = none) ∧
  (∀ ds : List Nat, (∃ d ∈ ds, 0xFF < d) → AsmLine.assemble (.crc16 ds) = none) ∧
  (∀ v k, k = 0 ∨ 16 < k ∨ 2 ^ k ≤ v → AsmLine.assemble (.bits v k) = none) ∧
  AsmLine.assemble (.zeros 0) = none

/-- R46: `crc16 d0, …` expands to INIT, the BYTEs and FLUSH; executed, it leaves the source's `crc16` of those bytes
under the `POLY` it found, and `POLY` as it was. -/
def Obligations.Crc16PseudoInstruction : Prop :=
  ∀ (ds : List Nat), (∀ d ∈ ds, d ≤ 0xFF) →
    AsmLine.assemble (.crc16 ds) =
      some ((messageCommands (ds.map (BitVec.ofNat 8))).map encode) ∧
    ∀ s : State, executeAll ((messageCommands (ds.map (BitVec.ofNat 8))).map encode) s =
      .next { s with crc := crc16 (ds.map (BitVec.ofNat 8)) s.poly }

/-- R47: `bits v, k` expands to k BITs, most significant first, and `zeros k` to k copies of `bit 0`; `zeros 16` leaves
the state of `flush` and `bits d, 8` that of `byte d`. -/
def Obligations.BitsAndZerosPseudoInstructions : Prop :=
  (∀ v k, 1 ≤ k → k ≤ 16 → v < 2 ^ k → ∃ ws, AsmLine.assemble (.bits v k) = some ws ∧ ws.length = k ∧
    ∀ i, i < k → ws[i]? = some (encode (.bit (v / 2 ^ (k - 1 - i) % 2 == 1)))) ∧
  (∀ k, 1 ≤ k → AsmLine.assemble (.zeros k) = some (List.replicate k (encode (.bit false)))) ∧
  (∀ s : State, ∃ ws, AsmLine.assemble (.zeros 16) = some ws ∧ executeAll ws s = executeAll [encode .flush] s) ∧
  (∀ (d : Nat) (s : State), d ≤ 0xFF → ∃ ws, AsmLine.assemble (.bits d 8) = some ws ∧
    executeAll ws s = executeAll [encode (.byte (BitVec.ofNat 8 d))] s)
end

