-- ==== Sys2Proof/Laws/Decode.lean ====
section
/-! SUPPORT. A word and its fields as numbers, the fields of a packed word, and the word that its fields make. -/

namespace Sys2Proof

open Machine

theorem opField_toNat (w : CmdWord) : (opField w).toNat = w.toNat % 16 := by
  simp [opField, BitVec.extractLsb'_toNat]

theorem rsvField_toNat (w : CmdWord) : (rsvField w).toNat = w.toNat / 16 % 4096 := by
  simp [rsvField, BitVec.extractLsb'_toNat, Nat.shiftRight_eq_div_pow]

theorem immField_toNat (w : CmdWord) : (immField w).toNat = w.toNat / 65536 := by
  have := w.isLt
  simp [immField, BitVec.extractLsb'_toNat, Nat.shiftRight_eq_div_pow]
  omega

theorem packWord_toNat (imm : Word) (op : BitVec 4) : (packWord imm op).toNat = imm.toNat * 65536 + op.toNat := by
  have h1 := op.isLt
  have h2 := Nat.two_pow_add_eq_or_of_lt h1 (imm.toNat * 4096)
  have h3 : imm.toNat * 4096 * 16 = 2 ^ 4 * (imm.toNat * 4096) := by omega
  simp only [packWord, BitVec.toNat_append, BitVec.toNat_ofNat, Nat.shiftLeft_eq]
  norm_num
  rw [h3, ← h2]
  omega

@[simp] theorem opField_packWord (imm : Word) (op : BitVec 4) : opField (packWord imm op) = op := by
  apply BitVec.eq_of_toNat_eq
  rw [opField_toNat, packWord_toNat]
  omega

@[simp] theorem rsvField_packWord (imm : Word) (op : BitVec 4) : rsvField (packWord imm op) = 0 := by
  apply BitVec.eq_of_toNat_eq
  rw [rsvField_toNat, packWord_toNat]
  simp
  omega

@[simp] theorem immField_packWord (imm : Word) (op : BitVec 4) : immField (packWord imm op) = imm := by
  apply BitVec.eq_of_toNat_eq
  rw [immField_toNat, packWord_toNat]
  omega

/-- A word whose `RSV` is 0 is packed from its `IMM16` and `OP` (R38). -/
theorem word_eq_packWord (w : CmdWord) (h : rsvField w = 0) : w = packWord (immField w) (opField w) := by
  apply BitVec.eq_of_toNat_eq
  have h0 : (rsvField w).toNat = 0 := by rw [h]; rfl
  rw [rsvField_toNat] at h0
  rw [packWord_toNat, immField_toNat, opField_toNat]
  omega

theorem decode_packWord (imm : Word) (op : BitVec 4) : decode (packWord imm op) = decodeOp op.toNat imm := by
  simp [decode]

/-- The four bytes of a word make the word again (R33). -/
theorem wordOfBytes_bytes (w : CmdWord) :
    wordOfBytes (w.extractLsb' 0 8) (w.extractLsb' 8 8) (w.extractLsb' 16 8) (w.extractLsb' 24 8) = w := by
  apply BitVec.eq_of_getLsbD_eq
  intro i hi
  rw [wordOfBytes, BitVec.getLsbD_append, BitVec.getLsbD_append, BitVec.getLsbD_append]
  by_cases h0 : i < 8
  · simp [h0]
  · by_cases h1 : i - 8 < 8
    · have : 8 + (i - 8) = i := by omega
      simp [h0, h1, this]
    · by_cases h2 : i - 8 - 8 < 8
      · have : 16 + (i - 8 - 8) = i := by omega
        simp [h0, h1, h2, this]
      · have e : 24 + (i - 8 - 8 - 8) = i := by omega
        have l : i - 8 - 8 - 8 < 8 := by omega
        simp [h0, h1, h2, e, l]

end Sys2Proof
end

