-- ==== Sys2Proof/Laws/State.lean ====
section
/-! SUPPORT. One lemma per field of State and update of it, true by `rfl`. -/

namespace Sys2Proof.Machine

variable (s : State)

@[simp] theorem State.writeCrc_crc (v : Word) : (s.writeCrc v).crc = v := rfl
@[simp] theorem State.writeCrc_poly (v : Word) : (s.writeCrc v).poly = s.poly := rfl
@[simp] theorem State.writeCrc_err (v : Word) : (s.writeCrc v).err = s.err := rfl
@[simp] theorem State.writeCrc_inProgress (v : Word) : (s.writeCrc v).inProgress = s.inProgress := rfl
@[simp] theorem State.writeCrc_inputs (v : Word) : (s.writeCrc v).inputs = s.inputs := rfl
@[simp] theorem State.writeCrc_draws (v : Word) : (s.writeCrc v).draws = s.draws := rfl

@[simp] theorem State.writePoly_crc (v : Word) : (s.writePoly v).crc = s.crc := rfl
@[simp] theorem State.writePoly_poly (v : Word) : (s.writePoly v).poly = v := rfl
@[simp] theorem State.writePoly_err (v : Word) : (s.writePoly v).err = s.err := rfl
@[simp] theorem State.writePoly_inProgress (v : Word) : (s.writePoly v).inProgress = s.inProgress := rfl
@[simp] theorem State.writePoly_inputs (v : Word) : (s.writePoly v).inputs = s.inputs := rfl
@[simp] theorem State.writePoly_draws (v : Word) : (s.writePoly v).draws = s.draws := rfl

@[simp] theorem State.setErr_crc : s.setErr.crc = s.crc := rfl
@[simp] theorem State.setErr_poly : s.setErr.poly = s.poly := rfl
@[simp] theorem State.setErr_err : s.setErr.err = true := rfl
@[simp] theorem State.setErr_inProgress : s.setErr.inProgress = s.inProgress := rfl
@[simp] theorem State.setErr_inputs : s.setErr.inputs = s.inputs := rfl
@[simp] theorem State.setErr_draws : s.setErr.draws = s.draws := rfl

@[simp] theorem State.clearErr_crc : s.clearErr.crc = s.crc := rfl
@[simp] theorem State.clearErr_poly : s.clearErr.poly = s.poly := rfl
@[simp] theorem State.clearErr_err : s.clearErr.err = Config.errReset := rfl
@[simp] theorem State.clearErr_inProgress : s.clearErr.inProgress = s.inProgress := rfl
@[simp] theorem State.clearErr_inputs : s.clearErr.inputs = s.inputs := rfl
@[simp] theorem State.clearErr_draws : s.clearErr.draws = s.draws := rfl

@[simp] theorem State.absorb_crc (bs : List Bit) : (s.absorb bs).crc = absorbBits s.crc bs s.poly := rfl
@[simp] theorem State.absorb_poly (bs : List Bit) : (s.absorb bs).poly = s.poly := rfl
@[simp] theorem State.absorb_err (bs : List Bit) : (s.absorb bs).err = s.err := rfl
@[simp] theorem State.absorb_inProgress (bs : List Bit) : (s.absorb bs).inProgress = s.inProgress := rfl
@[simp] theorem State.absorb_inputs (bs : List Bit) : (s.absorb bs).inputs = s.inputs := rfl
@[simp] theorem State.absorb_draws (bs : List Bit) : (s.absorb bs).draws = s.draws := rfl

@[simp] theorem State.raiseIllegalCommand_crc : s.raiseIllegalCommand.crc = s.crc := rfl
@[simp] theorem State.raiseIllegalCommand_poly : s.raiseIllegalCommand.poly = s.poly := rfl
@[simp] theorem State.raiseIllegalCommand_err : s.raiseIllegalCommand.err = true := rfl
@[simp] theorem State.raiseIllegalCommand_inProgress : s.raiseIllegalCommand.inProgress = s.inProgress := rfl
@[simp] theorem State.raiseIllegalCommand_inputs : s.raiseIllegalCommand.inputs = s.inputs := rfl
@[simp] theorem State.raiseIllegalCommand_draws : s.raiseIllegalCommand.draws = s.draws := rfl

@[simp] theorem State.applyReset_crc : s.applyReset.crc = Config.crcReset := rfl
@[simp] theorem State.applyReset_poly : s.applyReset.poly = Config.polyReset := rfl
@[simp] theorem State.applyReset_err : s.applyReset.err = Config.errReset := rfl
@[simp] theorem State.applyReset_inProgress : s.applyReset.inProgress = none := rfl
@[simp] theorem State.applyReset_inputs : s.applyReset.inputs = s.inputs := rfl
@[simp] theorem State.applyReset_draws : s.applyReset.draws = s.draws := rfl

@[simp] theorem State.hold_crc (w : CmdWord) : (s.hold w).crc = s.crc := rfl
@[simp] theorem State.hold_poly (w : CmdWord) : (s.hold w).poly = s.poly := rfl
@[simp] theorem State.hold_err (w : CmdWord) : (s.hold w).err = s.err := rfl
@[simp] theorem State.hold_inProgress (w : CmdWord) : (s.hold w).inProgress = some w := rfl
@[simp] theorem State.hold_inputs (w : CmdWord) : (s.hold w).inputs = s.inputs := rfl
@[simp] theorem State.hold_draws (w : CmdWord) : (s.hold w).draws = s.draws + 1 := rfl

@[simp] theorem State.stayBusy_crc : s.stayBusy.crc = s.crc := rfl
@[simp] theorem State.stayBusy_poly : s.stayBusy.poly = s.poly := rfl
@[simp] theorem State.stayBusy_err : s.stayBusy.err = s.err := rfl
@[simp] theorem State.stayBusy_inProgress : s.stayBusy.inProgress = s.inProgress := rfl
@[simp] theorem State.stayBusy_inputs : s.stayBusy.inputs = s.inputs := rfl
@[simp] theorem State.stayBusy_draws : s.stayBusy.draws = s.draws + 1 := rfl

@[simp] theorem State.release_crc : s.release.crc = s.crc := rfl
@[simp] theorem State.release_poly : s.release.poly = s.poly := rfl
@[simp] theorem State.release_err : s.release.err = s.err := rfl
@[simp] theorem State.release_inProgress : s.release.inProgress = none := rfl
@[simp] theorem State.release_inputs : s.release.inputs = s.inputs := rfl
@[simp] theorem State.release_draws : s.release.draws = s.draws := rfl

@[simp] theorem State.presentWord_crc (w : CmdWord) : (s.presentWord w).crc = s.crc := rfl
@[simp] theorem State.presentWord_poly (w : CmdWord) : (s.presentWord w).poly = s.poly := rfl
@[simp] theorem State.presentWord_err (w : CmdWord) : (s.presentWord w).err = s.err := rfl
@[simp] theorem State.presentWord_inProgress (w : CmdWord) : (s.presentWord w).inProgress = none := rfl
@[simp] theorem State.presentWord_inputs (w : CmdWord) : (s.presentWord w).inputs = PortInput.command w :: s.inputs := rfl
@[simp] theorem State.presentWord_draws (w : CmdWord) : (s.presentWord w).draws = s.draws := rfl

@[simp] theorem State.reset_cmdReady : State.reset.cmdReady = true := rfl

theorem State.cmdReady_iff : s.cmdReady = true ↔ s.inProgress = none := by
  cases h : s.inProgress <;> simp [State.cmdReady, h]

theorem State.takeInput_nil (h : s.inputs = []) : s.takeInput = (PortInput.idle, s) := by
  simp [State.takeInput, h]

theorem State.takeInput_cons (p : PortInput) (rest : List PortInput) (h : s.inputs = p :: rest) :
    s.takeInput = (p, { s with inputs := rest }) := by
  simp [State.takeInput, h]

/-- Taking an input changes the list of inputs alone. -/
theorem State.takeInput_frame :
    s.takeInput.2.crc = s.crc ∧ s.takeInput.2.poly = s.poly ∧ s.takeInput.2.err = s.err ∧
      s.takeInput.2.inProgress = s.inProgress ∧ s.takeInput.2.inputs = s.inputs.tail ∧
      s.takeInput.2.draws = s.draws := by
  cases h : s.inputs <;> simp [State.takeInput, h]

end Sys2Proof.Machine
end

