-- ==== Sys2Proof/Laws/Ops.lean ====
section
/-! SUPPORT. What the shared operations do: streams of bits and their absorption. -/

namespace Sys2Proof.Machine

@[simp] theorem absorbBits_nil (r p : Word) : absorbBits r [] p = r := rfl

@[simp] theorem absorbBits_cons (r p : Word) (b : Bit) (bs : List Bit) :
    absorbBits r (b :: bs) p = absorbBits (crcRound r b p) bs p := rfl

theorem absorbBits_append (r p : Word) (as bs : List Bit) :
    absorbBits r (as ++ bs) p = absorbBits (absorbBits r as p) bs p := by
  simp [absorbBits]

/-- Absorbing two streams one after the other is absorbing the one stream they make. -/
theorem State.absorb_absorb (s : State) (as bs : List Bit) : (s.absorb as).absorb bs = s.absorb (as ++ bs) := by
  simp [State.absorb, State.writeCrc, absorbBits_append]

@[simp] theorem State.absorb_nil (s : State) : s.absorb [] = s := rfl

/-- The bits of a byte, most significant first, written out (R24). -/
theorem byteBits_eq (d : Byte) :
    byteBits d = [d.getLsbD 7, d.getLsbD 6, d.getLsbD 5, d.getLsbD 4, d.getLsbD 3, d.getLsbD 2, d.getLsbD 1,
      d.getLsbD 0] := rfl

@[simp] theorem byteBits_length (d : Byte) : (byteBits d).length = 8 := rfl

@[simp] theorem flushBits_length : flushBits.length = 16 := rfl

@[simp] theorem messageBits_nil : messageBits [] = [] := rfl

@[simp] theorem messageBits_cons (d : Byte) (buf : List Byte) : messageBits (d :: buf) = byteBits d ++ messageBits buf := by
  simp [messageBits]

theorem messageBits_append (as bs : List Byte) : messageBits (as ++ bs) = messageBits as ++ messageBits bs := by
  simp [messageBits]

theorem messageBits_length (buf : List Byte) : (messageBits buf).length = 8 * buf.length := by
  induction buf with
  | nil => rfl
  | cons d buf ih => simp [ih]; omega

/-- Absorbing bytes one by one is absorbing the message's bit stream (R24). -/
theorem foldl_absorb_bytes (r p : Word) (buf : List Byte) :
    buf.foldl (fun t d => absorbBits t (byteBits d) p) r = absorbBits r (messageBits buf) p := by
  induction buf generalizing r with
  | nil => rfl
  | cons d buf ih => simp [ih, absorbBits_append]

end Sys2Proof.Machine
end

