-- ==== Sys2Proof/Laws/Execute.lean ====
section
/-! SUPPORT. What one accepted word, a sequence of words and one step can do: one inversion lemma for each, cited
instead of unfolding. -/

namespace Sys2Proof.Machine

theorem execute_legal {w : CmdWord} {i : Instr} (h : decode w = .legal i) (s : State) :
    execute w s = exec i s := by simp [execute, h]

theorem execute_illegal {w : CmdWord} {why : Reject} (h : decode w = .illegal why) (s : State) :
    execute w s = .next s.raiseIllegalCommand := by simp [execute, h]

@[simp] theorem executeAll_nil (s : State) : executeAll [] s = .next s := rfl

theorem executeAll_cons {w : CmdWord} {ws : List CmdWord} {s t : State} (h : execute w s = .next t) :
    executeAll (w :: ws) s = executeAll ws t := by simp [executeAll, h]

/-- Everything a step from a state with no command in progress can do. -/
theorem driveReady_cases {p : PortInput} {s : State} {o : Host.Outcome State Fault Refusal}
    (h : driveReady p s = o) :
    (p.cmdValid = false ∧ o = .next s) ∨
      (p.cmdValid = true ∧ p.awaitReady = true ∧ o = execute p.cmdIn s) ∨
      (p.cmdValid = true ∧ p.awaitReady = false ∧ o = .next (s.hold p.cmdIn)) := by
  subst h
  cases hv : p.cmdValid <;> cases ha : p.awaitReady <;> simp [driveReady, hv, ha]

/-- Everything a step from a state with a command in progress can do, reset apart. -/
theorem driveBusy_cases {w : CmdWord} {p : PortInput} {s : State} {o : Host.Outcome State Fault Refusal}
    (h : driveBusy w p s = o) :
    (p.cmdValid = true ∧ o = .refused (.commandWhileBusy p.cmdIn)) ∨
      (p.cmdValid = false ∧ p.awaitReady = true ∧ o = execute w s.release) ∨
      (p.cmdValid = false ∧ p.awaitReady = false ∧ o = .next s.stayBusy) := by
  subst h
  cases hv : p.cmdValid <;> cases ha : p.awaitReady <;> simp [driveBusy, hv, ha]

theorem drive_reset {p : PortInput} (s : State) (h : p.rst = true) : drive p s = .next s.applyReset := by
  simp [drive, h]

theorem drive_ready {p : PortInput} {s : State} (h : p.rst = false) (hs : s.inProgress = none) :
    drive p s = driveReady p s := by simp [drive, h, hs]

theorem drive_busy {p : PortInput} {s : State} {w : CmdWord} (h : p.rst = false) (hs : s.inProgress = some w) :
    drive p s = driveBusy w p s := by simp [drive, h, hs]

theorem step_of_input {p : PortInput} {rest : List PortInput} {s : State} (h : s.inputs = p :: rest) :
    step s = drive p { s with inputs := rest } := by
  simp [step, stepInput, State.takeInput_cons s p rest h]

theorem step_without_input {s : State} (h : s.inputs = []) : step s = drive .idle s := by
  simp [step, stepInput, State.takeInput_nil s h]

theorem step_reset {p : PortInput} {rest : List PortInput} {s : State} (h : s.inputs = p :: rest)
    (hr : p.rst = true) : step s = .next (State.applyReset { s with inputs := rest }) := by
  rw [step_of_input h, drive_reset _ hr]

theorem step_ready {p : PortInput} {rest : List PortInput} {s : State} (h : s.inputs = p :: rest)
    (hr : p.rst = false) (hs : s.inProgress = none) : step s = driveReady p { s with inputs := rest } := by
  rw [step_of_input h]
  exact drive_ready (s := { s with inputs := rest }) hr hs

theorem step_busy {p : PortInput} {rest : List PortInput} {s : State} {w : CmdWord} (h : s.inputs = p :: rest)
    (hr : p.rst = false) (hs : s.inProgress = some w) : step s = driveBusy w p { s with inputs := rest } := by
  rw [step_of_input h]
  exact drive_busy (s := { s with inputs := rest }) hr hs

/-- A ready machine whose host drives nothing stays as it is (log 2). -/
theorem step_ready_without_input {s : State} (h : s.inputs = []) (hs : s.inProgress = none) : step s = .next s := by
  rw [step_without_input h, drive_ready rfl hs]
  rfl

/-- A command in progress completes when the host drives nothing (R90). -/
theorem step_busy_without_input {s : State} {w : CmdWord} (h : s.inputs = []) (hs : s.inProgress = some w) :
    step s = execute w s.release := by
  rw [step_without_input h, drive_busy rfl hs]
  rfl

/-- Everything a step can do, `p` the input it takes and `s'` the state with that input taken: reset; nothing presented;
a word executed at once; a word held; with a word in progress, a refusal, its completion, or time passing. -/
theorem step_cases {s s' : State} {p : PortInput} {o : Host.Outcome State Fault Refusal}
    (hp : s.takeInput = (p, s')) (h : step s = o) :
    (p.rst = true ∧ o = .next s'.applyReset) ∨
      (p.rst = false ∧ s.inProgress = none ∧
        ((p.cmdValid = false ∧ o = .next s') ∨
          (p.cmdValid = true ∧ p.awaitReady = true ∧ o = execute p.cmdIn s') ∨
          (p.cmdValid = true ∧ p.awaitReady = false ∧ o = .next (s'.hold p.cmdIn)))) ∨
      (∃ w, p.rst = false ∧ s.inProgress = some w ∧
        ((p.cmdValid = true ∧ o = .refused (.commandWhileBusy p.cmdIn)) ∨
          (p.cmdValid = false ∧ p.awaitReady = true ∧ o = execute w s'.release) ∨
          (p.cmdValid = false ∧ p.awaitReady = false ∧ o = .next s'.stayBusy))) := by
  have same : s'.inProgress = s.inProgress := by
    have frame := s.takeInput_frame.2.2.2.1
    rwa [hp] at frame
  have hd : drive p s' = o := by rw [← h, step, stepInput, hp]
  cases hr : p.rst with
  | true => exact .inl ⟨rfl, by rw [← hd, drive_reset s' hr]⟩
  | false =>
    cases hb : s.inProgress with
    | none =>
      rw [drive_ready hr (same.trans hb)] at hd
      exact .inr (.inl ⟨rfl, rfl, driveReady_cases hd⟩)
    | some w =>
      rw [drive_busy hr (same.trans hb)] at hd
      exact .inr (.inr ⟨w, rfl, rfl, driveBusy_cases hd⟩)

/-- Everything an accepted word can do: it computes new values of the three registers from the old ones, whatever the
rest of the state is, and leaves that rest alone. -/
theorem execute_on_registers (w : CmdWord) (c p : Word) (e : Bit) :
    ∃ c' p' e', ∀ b i d, execute w ⟨c, p, e, b, i, d⟩ = .next ⟨c', p', e', b, i, d⟩ := by
  unfold execute
  cases decode w with
  | illegal why => exact ⟨c, p, true, fun _ _ _ => rfl⟩
  | legal i =>
    cases i with
    | nop => exact ⟨c, p, e, fun _ _ _ => rfl⟩
    | init => exact ⟨Config.initValue, p, e, fun _ _ _ => rfl⟩
    | setpoly q => exact ⟨c, q, e, fun _ _ _ => rfl⟩
    | bit b => exact ⟨absorbBits c [b] p, p, e, fun _ _ _ => rfl⟩
    | byte d => exact ⟨absorbBits c (byteBits d) p, p, e, fun _ _ _ => rfl⟩
    | flush => exact ⟨absorbBits c flushBits p, p, e, fun _ _ _ => rfl⟩

theorem execute_writes_registers (w : CmdWord) (s : State) :
    ∃ c p e, execute w s = .next { s with crc := c, poly := p, err := e } := by
  obtain ⟨c, p, e, h⟩ := execute_on_registers w s.crc s.poly s.err
  exact ⟨c, p, e, h s.inProgress s.inputs s.draws⟩

end Sys2Proof.Machine
end

