-- ==== Sys2Proof/Laws/PerInstr.lean ====
section
/-! SUPPORT. The family `TableRow`: every command's word fits the opcode-table row of its mnemonic, one lemma per
constructor. -/

namespace Sys2Proof.Laws.TableRow

open Sys2Proof

/-- The word of `i` fits a row of spec/opcode_table.json that carries `i`'s mnemonic. -/
def Statement (i : Instr) : Prop := ∃ r ∈ opcodeTable, r.mnemonic = i.mnemonic ∧ r.fits (encode i) = true

theorem nop : Statement .nop := ⟨_, .head _, rfl, by decide⟩

theorem init : Statement .init := ⟨_, .tail _ (.head _), rfl, by decide⟩

theorem setpoly (p : Word) : Statement (.setpoly p) := by
  refine ⟨_, .tail _ (.tail _ (.head _)), rfl, ?_⟩
  rw [Row.fits, beq_iff_eq]
  apply BitVec.eq_of_toNat_eq
  have mask := Nat.and_two_pow_sub_one_eq_mod (encode (.setpoly p)).toNat 16
  have word := packWord_toNat p 0x2#4
  norm_num at mask word
  simp only [BitVec.toNat_and, BitVec.toNat_ofNat]
  norm_num
  rw [mask, encode, word]
  omega

theorem bit (b : Bit) : Statement (.bit b) := by
  refine ⟨_, .tail _ (.tail _ (.tail _ (.head _))), rfl, ?_⟩
  cases b <;> decide

theorem byte (d : Byte) : Statement (.byte d) := by
  refine ⟨_, .tail _ (.tail _ (.tail _ (.tail _ (.head _)))), rfl, ?_⟩
  revert d
  decide

theorem flush : Statement .flush := ⟨_, .tail _ (.tail _ (.tail _ (.tail _ (.tail _ (.head _))))), rfl, by decide⟩

end Sys2Proof.Laws.TableRow
end

