-- ==== Sys2Proof/Laws/Run.lean ====
section
/-! SUPPORT. Runs of several steps, one step at a time, and the host's notion of a run. -/

namespace Sys2Proof.Safety

open Sys2Proof.Machine

@[simp] theorem runSteps_zero (s : State) : runSteps 0 s = .next s := rfl

theorem runSteps_succ {s t : State} (h : step s = .next t) (k : Nat) : runSteps (k + 1) s = runSteps k t := by
  simp [runSteps, h]

/-- The host's run of the machine is this one. -/
theorem core_run_eq_runSteps (k : Nat) (s : State) : core.run k s = runSteps k s := by
  induction k generalizing s with
  | zero => rfl
  | succ k ih =>
    cases h : step s with
    | next t =>
      have hc : core.step s = .next t := h
      simp only [Host.Core.run, hc, runSteps, h]
      exact ih t
    | fault r =>
      have hc : core.step s = .fault r := h
      simp only [Host.Core.run, hc, runSteps, h]
      rfl
    | refused r =>
      have hc : core.step s = .refused r := h
      simp only [Host.Core.run, hc, runSteps, h]
      rfl

end Sys2Proof.Safety
end

