-- ==== Sys2Proof/Tests/Slice0.lean ====
section
/-! SUPPORT. The model's own tests. Expected results are those of spec/95_test_vectors.md (named V-… and P…) and of the
rules' own examples, never the model's answers. The last part holds a witness for every statement with hypotheses. -/

namespace Sys2Proof.Tests

open Sys2Proof.Machine Sys2Proof.Safety Sys2Proof.Claims

/-- A state between commands with the given (`CRC`, `POLY`, `ERR`) and a host that drives nothing. -/
def st (c p : Word) (e : Bit) : State := { State.reset with crc := c, poly := p, err := e }

/-- The same with inputs to come. -/
def driven (c p : Word) (e : Bit) (ins : List PortInput) : State := { st c p e with inputs := ins }

/-- The same with a command in progress. -/
def busy (w : CmdWord) (ins : List PortInput) : State := { st 0 0x1021 false with inProgress := some w, inputs := ins }

/-- The next state, if there is one. -/
def next? (o : Host.Outcome State Fault Refusal) : Option State :=
  match o with
  | .next s => some s
  | .fault _ => none
  | .refused _ => none

/-- The reason of a refusal, if it is one. -/
def refusal? (o : Host.Outcome State Fault Refusal) : Option Refusal :=
  match o with
  | .refused r => some r
  | .next _ => none
  | .fault _ => none

/-- The buffer of a helper, if it did not fault. -/
def value? {α : Type} (r : Except Fault α) : Option α :=
  match r with
  | .ok a => some a
  | .error _ => none

/-! ### Well-formedness: an ill-formed term for each check (R45 to R47) -/

theorem test_wf_setpoly : AsmLine.wellFormed (.setpoly 0x10000) = false := by decide
theorem test_wf_bit : AsmLine.wellFormed (.bit 2) = false := by decide
theorem test_wf_byte : AsmLine.wellFormed (.byte 0x100) = false := by decide
theorem test_wf_word : AsmLine.wellFormed (.word 0x100000000) = false := by decide
theorem test_wf_crc16 : AsmLine.wellFormed (.crc16 [0x31, 0x100]) = false := by decide
theorem test_wf_bits_none : AsmLine.wellFormed (.bits 0 0) = false := by decide
theorem test_wf_bits_many : AsmLine.wellFormed (.bits 0 17) = false := by decide
theorem test_wf_bits_value : AsmLine.wellFormed (.bits 8 3) = false := by decide
theorem test_assemble_out_of_range :
    AsmLine.assemble (.crc16 [0x31, 0x100]) = none ∧ AsmLine.assemble (.bits 8 3) = none ∧
    AsmLine.assemble (.zeros 0) = none := by decide
theorem test_wf_zeros : AsmLine.wellFormed (.zeros 0) = false := by decide
theorem test_wf_limits :
    [AsmLine.setpoly 0xFFFF, .bit 1, .byte 0xFF, .word 0xFFFFFFFF, .crc16 [], .bits 0xFFFF 16, .zeros 1].all
      AsmLine.wellFormed = true := by decide

/-! ### Decoding: words written out bit by bit from R38 to R41: IMM16, RSV, OP -/

theorem test_decode_nop : decode 0b0000000000000000_000000000000_0000#32 = .legal .nop := by decide
theorem test_decode_init : decode 0b0000000000000000_000000000000_0001#32 = .legal .init := by decide
theorem test_decode_setpoly : decode 0b0001000000100001_000000000000_0010#32 = .legal (.setpoly 0x1021) := by decide
theorem test_decode_bit : decode 0b0000000000000001_000000000000_0011#32 = .legal (.bit true) := by decide
theorem test_decode_byte : decode 0b0000000001000001_000000000000_0100#32 = .legal (.byte 0x41) := by decide
theorem test_decode_flush : decode 0b0000000000000000_000000000000_0101#32 = .legal .flush := by decide

/-- The row numbering: bit 0 of the table is the least significant bit of the word. -/
theorem test_decodeTableWord : decodeTableWord 32 0x80050002 = some (.setpoly 0x8005) := by decide

/-- R33: bits 7:0 first. -/
theorem test_decodeBytes : decodeBytes [0x04, 0x00, 0x41, 0x00, 0x05] = some (.legal (.byte 0x41), [0x05]) := by decide

/-- The illegal words of V-DEC, each by its reason. -/
theorem test_decode_illegal :
    decode 0x00020003 = .illegal .operandBits ∧ decode 0x01410004 = .illegal .operandBits ∧
    decode 0x80000005 = .illegal .operandBits ∧ decode 0x00010001 = .illegal .operandBits ∧
    decode 0x00010000 = .illegal .operandBits ∧ decode 0x00000010 = .illegal .reservedBits ∧
    decode 0x00008004 = .illegal .reservedBits ∧ decode 0xFFFFFFFF = .illegal .reservedBits ∧
    decode 0x00000006 = .illegal .reservedOpcode ∧ decode 0x0000000F = .illegal .reservedOpcode := by decide

/-- The words of R45's table. -/
theorem test_encode :
    encode .nop = 0x00000000 ∧ encode .init = 0x00000001 ∧ encode (.setpoly 0x8005) = 0x80050002 ∧
    encode (.bit true) = 0x00010003 ∧ encode (.byte 0x42) = 0x00420004 ∧ encode .flush = 0x00000005 := by decide

/-! ### The round: V-RND-6 (the order of R49), V-RND-11, V-RND-13, V-RND-14 -/

theorem test_round :
    crcRound 0x8000 true 0x1021 = 0x1020 ∧ crcRound 0x8000 true 0xFFFF = 0xFFFE ∧
    crcRound 0xFFFF true 0x0000 = 0xFFFF ∧ crcRound 0x8001 false 0x8005 = 0x8007 := by decide

/-! ### The commands, at most two tests each -/

/-- V-INIT-2: `POLY` and `ERR` untouched. -/
theorem test_init : next? (exec .init (st 0xFFFF 0x8005 true)) = some (st 0xFFFF 0x8005 true) := by decide
/-- V-INIT-1. -/
theorem test_init_overwrites : next? (exec .init (st 0x1234 0x1021 false)) = some (st 0xFFFF 0x1021 false) := by decide
/-- V-RND-2. -/
theorem test_bit : next? (exec (.bit true) (st 0xFFFF 0x1021 false)) = some (st 0xEFDE 0x1021 false) := by decide
/-- V-RND-12. -/
theorem test_bit_zero : next? (exec (.bit false) (st 0xFFFF 0xFFFF true)) = some (st 0x0001 0xFFFF true) := by decide
/-- V-BYTE-11: an asymmetric byte, which a reversed bit order would show. -/
theorem test_byte : next? (exec (.byte 0x12) (st 0xABCD 0x1021 false)) = some (st 0xC993 0x1021 false) := by decide
/-- V-BYTE-12: another polynomial. -/
theorem test_byte_poly : next? (exec (.byte 0x31) (st 0xFFFF 0x8005 false)) = some (st 0xFD33 0x8005 false) := by decide
/-- V-FLUSH-4, and V-FLUSH-9 under another polynomial. -/
theorem test_flush : next? (exec .flush (st 0x8000 0x1021 false)) = some (st 0x1B98 0x1021 false) ∧
    next? (exec .flush (st 0xFFFF 0x8005 false)) = some (st 0x800D 0x8005 false) := by decide +kernel
/-- V-CFG-4: `CRC` and `ERR` untouched. -/
theorem test_setpoly : next? (exec (.setpoly 0x1021) (st 0xE1B1 0x8005 true)) = some (st 0xE1B1 0x1021 true) := by decide
/-- V-CFG-2. -/
theorem test_setpoly_zero : next? (exec (.setpoly 0) (st 0xE1B1 0x8005 false)) = some (st 0xE1B1 0 false) := by decide
/-- V-CFG-3. -/
theorem test_nop : next? (exec .nop (st 0xE1B1 0x1021 false)) = some (st 0xE1B1 0x1021 false) := by decide

/-! ### Steps: the illegal word, reset, the handshake -/

/-- V-ILL-5: `POLY` not written. -/
theorem test_illegal_setpoly :
    next? (step (driven 0x1234 0x1021 false [.command 0x00108002])) = some (st 0x1234 0x1021 true) := by decide
/-- V-ILL-3: `ERR` stays 1. -/
theorem test_illegal_again : next? (step (driven 0xE1B1 0x1021 true [.command 0xF])) = some (st 0xE1B1 0x1021 true) := by
  decide
/-- R80, R81: reset drops the command in progress and the one presented with it. -/
theorem test_reset_while_busy :
    next? (step (busy 0x00410004 [{ rst := true, cmdValid := true, cmdIn := 2, awaitReady := true }])) =
      some State.reset := by decide
/-- R79, R87: a command presented while one is in progress. -/
theorem test_refused_while_busy :
    refusal? (step (busy 0x00410004 [.command 0x5])) = some (.commandWhileBusy 0x5) := by decide
/-- R90, V-BYTE-5: the command in progress completes. -/
theorem test_completes : next? (step (busy 0x00410004 [.idle])) = some (st 0x0041 0x1021 false) := by decide
/-- R87: `cmd_ready` falls, and nothing of the command is in the registers yet. -/
theorem test_held : (next? (step (driven 0xFFFF 0x1021 false [presentWithoutWaiting 0x5]))).map
    (fun s => (s.crc, s.cmdReady)) = some (0xFFFF, false) := by decide
/-- A host that drives nothing (log 2). -/
theorem test_idle : next? (step State.reset) = some State.reset := by decide
/-- R16, R20. -/
theorem test_outputs : State.reset.outputs = ⟨0xFFFF, 0x1021, false, true⟩ := by decide
/-- V-BYTE-3 as the first command after reset, by the table's word. -/
theorem test_withFetchWord : next? (step (State.reset.withFetchWord 32 0x00410004)) = some (st 0xE1B1 0x1021 false) := by
  decide

/-! ### Messages -/

/-- V-MSG-2, V-MSG-12, V-MSG-18 (residue), V-MSG-21, V-MSG-3 (0xE5CC, not the source's 0x29B1: C1), and V-MSG-22 by the
OPEN parameter `CRCPOLY` (R5), given a value. -/
theorem test_crc16 :
    crc16 [0x41] 0x1021 = 0x9479 ∧ crc16 [0x41, 0x42] 0x1021 = 0xD2BB ∧ crc16 [0x41, 0x94, 0x79] 0x1021 = 0x0000 ∧
    crc16 [] 0x8005 = 0x800D ∧ crc16 checkString 0x1021 = 0xE5CC ∧ historicalCrc16 0x8005 checkString = 0x9ECF := by
  decide +kernel
/-- P4, illegal words inside a message, and P7, SETPOLY inside a message. -/
theorem test_programs :
    next? (executeAll [0x00000001, 0x00410004, 0x00410006, 0x01420004, 0x00000005] (st 0xFFFF 0x1021 false)) =
      some (st 0x9479 0x1021 true) ∧
    next? (executeAll [0x00000001, 0x00410004, 0x80050002, 0x00420004, 0x00000005] (st 0xFFFF 0x1021 false)) =
      some (st 0xAA12 0x8005 false) := by decide +kernel
/-- R83 to R86: what the host's duties allow and forbid. -/
theorem test_conforming :
    conformingMessage [.setpoly 0x8005, .init, .byte 0x41, .nop, .flush] = true ∧
    conformingMessage [.byte 0x41, .flush] = false ∧ conformingMessage [.init, .byte 0x41] = false ∧
    conformingMessage [.init, .bit true, .setpoly 1, .flush] = false ∧
    conformingMessage [.init, .flush, .flush] = false := by decide
/-- R87, R88, R89: the handshake and the trusted result. -/
theorem test_safety :
    handshakeKept (busy 5 [.idle, .command 1]) = true ∧ handshakeKept (busy 5 [lettingTimePass, .command 1]) = false ∧
    handshakeKept (driven 0 0 false [presentWithoutWaiting 5, .reset, .command 1]) = true ∧
    resultTrusted (st 0x9479 0x1021 false) = true ∧ resultTrusted (st 0x9479 0x1021 true) = false := by decide

/-! ### Helpers: V-LE-2, V-LE-3, V-LE-4, V-LE-5, V-LE-6, V-LE-7 -/

theorem test_store : value? (store16 0xE5CC [0, 0, 7]) = some [0xCC, 0xE5, 7] ∧
    value? (store32 0x12345678 [0, 0, 0, 0]) = some [0x78, 0x56, 0x34, 0x12] := by decide
theorem test_load : value? (load16 [0xCD, 0xAB]) = some 0xABCD ∧
    value? (load32 [0x01, 0x02, 0x03, 0x04]) = some 0x04030201 := by decide
theorem test_short : value? (load16 [0x01]) = none ∧ value? (store32 0 [1, 2, 3]) = none := by decide

/-! ### The assembler's text (R45 to R47) -/

/-- Lower case, a decimal and a hexadecimal immediate, a comment, `.word`. -/
theorem test_assemble_text : assembleProgram
    ['i', 'n', 'i', 't', ' ', ';', 'x', '\n', 'b', 'y', 't', 'e', ' ', '0', 'x', '4', '1', '\n',
     'b', 'i', 't', ' ', '1', '\n', '.', 'w', 'o', 'r', 'd', ' ', '1', '5'] =
      some [0x00000001, 0x00410004, 0x00010003, 0x0000000F] := by decide
/-- R46, R47; the 3-bit message of P10 with its value in decimal. -/
theorem test_assemble_pseudo : assembleProgram
    ['b', 'i', 't', 's', ' ', '5', ',', ' ', '3', '\n', 'c', 'r', 'c', '1', '6', ' ', '6', '5'] =
      some [0x00010003, 0x00000003, 0x00010003, 0x00000001, 0x00410004, 0x00000005] := by decide
/-- An operand out of range, an upper-case mnemonic, a missing operand. -/
theorem test_assemble_rejects :
    assembleProgram ['b', 'i', 't', ' ', '2'] = none ∧ assembleProgram ['N', 'O', 'P'] = none ∧
    assembleProgram ['b', 'y', 't', 'e'] = none := by decide

/-! ### Witnesses: the hypotheses of each statement, met together by concrete values -/

theorem witness_ResetFromAnyState : ∃ (s : State) (p : PortInput) (rest : List PortInput),
    s.inputs = p :: rest ∧ p.rst = true := ⟨busy 5 [.reset, .idle], .reset, [.idle], by decide⟩

theorem witness_LegalWordsAreTheTableRows : ∃ (w : CmdWord) (i : Instr) (r : Row),
    decode w = .legal i ∧ r ∈ opcodeTable ∧ r.fits w = true :=
  ⟨0x00410004, .byte 0x41, ⟨"byte", 0x00000004, 0xFF00FFFF⟩, by decide⟩

/-- One word at a boundary of each clause of DecodeFollowsTheFields, as (rsv, op, imm). -/
theorem witness_DecodeFollowsTheFields :
    [0x00000010#32, 0x00000006#32, 0x0000000F#32, 0x00000000#32, 0x00010000#32, 0x00000001#32, 0x00010001#32,
      0xFFFF0002#32, 0x00010003#32, 0x00020003#32, 0x00FF0004#32, 0x01000004#32, 0x00000005#32, 0x80000005#32].map
      (fun w => (w.toNat / 16 % 4096, w.toNat % 16, w.toNat / 65536)) =
    [(1, 0, 0), (0, 6, 0), (0, 15, 0), (0, 0, 0), (0, 0, 1), (0, 1, 0), (0, 1, 1), (0, 2, 65535), (0, 3, 1), (0, 3, 2),
      (0, 4, 255), (0, 4, 256), (0, 5, 0), (0, 5, 32768)] := by decide

theorem witness_RoundOrdersDiffer : ∃ (r : Word) (b : Bit) (p : Word),
    b = true ∧ r.getLsbD 15 = true ∧ p.getLsbD 0 = true := ⟨0x8000, true, 0x1021, by decide⟩

theorem witness_MaskedAndWideRoundsAgree : ∃ n : Nat, 17 ≤ n := ⟨17, by decide⟩

/-- Both ends of the range of stages. -/
theorem witness_TapEquations : ∀ i ∈ [1, 15], 1 ≤ i ∧ i ≤ 15 ∧ i ≠ 5 ∧ i ≠ 12 := by decide

theorem witness_NopCompletesUnchanged : ∃ (w : CmdWord) (s : State),
    w.toNat % 16 = 0 ∧ w ≠ 0 ∧ s.crc = 0xE1B1 := ⟨0x00010000, st 0xE1B1 0x1021 false, by decide⟩

theorem witness_InitCompletesWithAllOnes : ∃ (w : CmdWord) (s : State),
    w.toNat % 16 = 1 ∧ w ≠ 1 ∧ s.crc = 0x1234 := ⟨0x00010001, st 0x1234 0x1021 false, by decide⟩

theorem witness_BitCompletesWithOneRound : ∃ (w v : CmdWord) (s z u : State) (t : Option State),
    w.toNat % 16 = 3 ∧ w.extractLsb' 17 15 ≠ 0 ∧ v.toNat % 16 = 3 ∧ v.extractLsb' 4 12 ≠ 0 ∧ z.crc = 0 ∧ u.poly = 0 ∧
    s.crc = 0xFFFF ∧ s.poly = 0x1021 ∧ t.isSome = true ∧ next? (exec (.bit true) s) = t :=
  ⟨0x00020003, 0x00000013, st 0xFFFF 0x1021 false, st 0 0x1021 false, st 0xFFFF 0 false,
    some (st 0xEFDE 0x1021 false), by decide⟩

theorem witness_ByteCompletesWithEightRounds : ∃ (w v : CmdWord) (s z : State),
    w.toNat % 16 = 4 ∧ w.extractLsb' 24 8 ≠ 0 ∧ v.toNat % 16 = 4 ∧ v.extractLsb' 4 12 ≠ 0 ∧ z.crc = 0 ∧
    s.crc = 0xFFFF ∧ s.poly = 0x1021 :=
  ⟨0x01410004, 0x00008004, st 0xFFFF 0x1021 false, st 0 0x1021 false, by decide⟩

theorem witness_FlushCompletesWithSixteenZeroRounds : ∃ (w : CmdWord) (s z u : State),
    w.toNat % 16 = 5 ∧ w ≠ 5 ∧ z.crc = 0 ∧ u.poly = 0 ∧ s.crc = 0xFFFF ∧ s.poly = 0x1021 :=
  ⟨0x80000005, st 0xFFFF 0x1021 false, st 0 0x1021 false, st 0xFFFF 0 false, by decide⟩

theorem witness_SetpolyCompletesWithThePolynomial : ∃ (w : CmdWord) (p : Word) (s : State),
    w.toNat % 16 = 2 ∧ w.extractLsb' 4 12 ≠ 0 ∧ s.poly = p ∧ s.poly = 0x1021 :=
  ⟨0x00108002, 0x1021, st 0xE1B1 0x1021 false, by decide⟩

theorem witness_CommandFrame : ∃ i j : Instr,
    (∀ p, i ≠ .setpoly p) ∧ (j = .nop ∨ ∃ p, j = .setpoly p) :=
  ⟨.flush, .setpoly 7, fun _ h => Instr.noConfusion h, .inr ⟨7, rfl⟩⟩

theorem witness_AccessMatrix : ∃ (s1 s2 : State) (w : CmdWord) (p : PortInput), s1 ≠ s2 ∧ s1.crc = s2.crc ∧
    s1.poly = s2.poly ∧ (decode w).isIllegal = true ∧ p.rst = true :=
  ⟨st 1 2 true, st 1 2 false, 0xF, .reset, by decide⟩

theorem witness_IllegalWordOnlySetsErr : ∃ (w v : CmdWord) (i : Instr) (s : State) (rest : List PortInput),
    (decode w).isIllegal = true ∧ decode v = .legal i ∧ s.inProgress = none ∧ s.inputs = .command w :: rest :=
  ⟨0x00410006, 0x5, .flush, driven 1 2 false [.command 0x00410006, .idle], [.idle], by decide⟩

/-- A reset step; a step of an illegal word presented, and of one held, that raises `ERR`; one with `ERR` set before. -/
theorem witness_ErrIsStickyUntilReset :
    (next? (step (driven 1 2 true [.reset]))).isSome = true ∧
    (next? (step (driven 1 2 false [.command 0xF]))).map (·.err) = some true ∧
    (next? (step (busy 0xF [.idle]))).map (·.err) = some true ∧
    (next? (step (driven 1 2 true [.command 1]))).map (·.err) = some true := by decide

/-- Steps that change `CRC` (a presented BYTE, a held one with and without inputs left) and `POLY`, and steps in which no
word is taken to its end: nothing presented, a word presented and not waited for, time passing inside a command. -/
theorem witness_OnlyTheirCommandsWriteTheRegisters :
    (next? (step (driven 1 2 false [.command 0x00410004]))).map (fun t => (t.crc == 1, t.poly)) = some (false, 2) ∧
    (next? (step (busy 0x00410004 [.idle]))).map (·.crc) = some 0x0041 ∧
    (next? (step (busy 0x00410004 []))).map (·.crc) = some 0x0041 ∧
    (next? (step (driven 1 2 false [.command 0x00070002]))).map (fun t => (t.crc, t.poly)) = some (1, 7) ∧
    next? (step (driven 1 2 true [.idle])) = some (st 1 2 true) ∧
    (next? (step (driven 1 2 true [presentWithoutWaiting 1]))).map (fun t => (t.crc, t.poly, t.err)) = some (1, 2, true) ∧
    (next? (step (busy 0x00410004 [lettingTimePass]))).map (fun t => (t.crc, t.poly, t.err)) = some (0, 0x1021, false) := by
  decide

/-- The last words of both alternatives of completesNow. -/
theorem witness_completesNow : completesNow (busy 5 []) 5 ∧ completesNow (driven 1 2 false [.command 5]) 5 :=
  ⟨.inl ⟨rfl, fun _ _ h => by cases h⟩, .inr ⟨rfl, .command 5, [], by decide⟩⟩

theorem witness_RegistersHoldBetweenCommands :
    (st 1 2 true).inProgress = none ∧ (st 1 2 true).inputs = [] ∧
    ∃ p rest, (driven 1 2 true [.idle]).inputs = p :: rest ∧ p.rst = false ∧ p.cmdValid = false :=
  ⟨rfl, rfl, .idle, [], by decide⟩

theorem witness_StepRunsTheDecodedCommand : ∃ (s : State) (p : PortInput) (rest : List PortInput) (i : Instr),
    s.inProgress = none ∧ s.inputs = p :: rest ∧ p.rst = false ∧ p.cmdValid = true ∧ p.awaitReady = true ∧
    decode p.cmdIn = .legal i :=
  ⟨driven 1 2 false [.command 0x00410004], .command 0x00410004, [], .byte 0x41, by decide⟩

theorem witness_FetchWordRunsNext : decodeTableWord 32 0x00410004 = some (.byte 0x41) := by decide

theorem witness_StepStopsOnlyOnABrokenHandshake : ∃ (s : State) (w : CmdWord) (p : PortInput) (rest : List PortInput),
    s.inProgress = some w ∧ s.inputs = p :: rest ∧ p.rst = false ∧ p.cmdValid = true :=
  ⟨busy 5 [.command 1], 5, .command 1, [], by decide⟩

theorem witness_HandshakeIsKeptAndNeverStops : handshakeKept (busy 5 [lettingTimePass, .idle, .command 1]) = true := by
  decide

/-- A waited step, one of a host that drives nothing, and one that holds the word it presents. -/
theorem witness_ReadyRisesWhenAwaited :
    (next? (step (busy 5 [.idle]))).isSome = true ∧
    (next? (step (busy 5 []))).isSome = true ∧ (busy 5 []).inputs = [] ∧
    (next? (step (driven 1 2 false [presentWithoutWaiting 5]))).isSome = true ∧
    (presentWithoutWaiting 5).rst = false ∧ (presentWithoutWaiting 5).cmdValid = true ∧
    (presentWithoutWaiting 5).awaitReady = false := by decide

theorem witness_HeldCommandCompletesAtomically : ∃ (s : State) (w : CmdWord) (n : Nat) (rest : List PortInput),
    s.inProgress = none ∧
    s.inputs = presentWithoutWaiting w :: (List.replicate n lettingTimePass ++ .idle :: rest) :=
  ⟨driven 1 2 false [presentWithoutWaiting 5, lettingTimePass, .idle], 5, 1, [], by decide⟩

theorem witness_OutputsShowTheRegisters : (st 1 2 true).inProgress = none := by decide

theorem witness_CommandsRunInAcceptanceOrder : ∃ (ws : List CmdWord) (s : State) (rest : List PortInput),
    s.inProgress = none ∧ s.inputs = ws.map .command ++ rest :=
  ⟨[1, 0xF], driven 1 2 false [.command 1, .command 0xF, .idle], [.idle], by decide⟩

theorem witness_RepeatedCommands : (decode 0xF).isIllegal = true ∧ decode 0 = .legal .nop ∧
    decode 1 = .legal .init ∧ decode 0x00070002 = .legal (.setpoly 7) := by decide

theorem witness_MessageBitsAreMsbFirst : ∃ (buf : List Byte) (j i : Nat) (d : Byte), buf[j]? = some d ∧ i < 8 :=
  ⟨[1, 2], 1, 7, 2, by decide⟩

theorem witness_CoreComputesCrc16 : ∃ (s u : State) (p : Word) (buf : List Byte) (rest : List PortInput),
    s.inProgress = none ∧ s.inputs = presentAll (.setpoly p :: messageCommands buf) ++ rest ∧
    u.inProgress = none ∧ u.inputs = presentAll (messageCommands buf) ++ rest :=
  ⟨driven 1 2 true (presentAll [.setpoly 7, .init, .byte 0x41, .flush]),
    driven 1 2 true (presentAll [.init, .byte 0x41, .flush]), 7, [0x41], [], by decide⟩

theorem witness_ConformingMessageIgnoresHistory : ∃ (is : List Instr) (s1 s2 : State),
    conformingMessage is = true ∧ s1.poly = s2.poly ∧ s1.crc ≠ s2.crc :=
  ⟨[.init, .byte 0x41, .flush], st 1 2 true, st 3 2 false, by decide⟩

theorem witness_RoundAndCrcAreLinear : ([0x41, 0x42] : List Byte).length = ([1, 2] : List Byte).length := by decide

theorem witness_SingleBitErrorsAreDetected : ∃ (m : List Byte) (p : Word) (j i : Nat),
    p ≠ 0 ∧ j < m.length ∧ i < 8 := ⟨[0x31, 0x32], 0x0002, 1, 7, by decide⟩

theorem witness_ResidueIsZero : ∃ (m : List Byte) (p c : Word), c = crc16 m p :=
  ⟨[0x41], 0x1021, crc16 [0x41] 0x1021, rfl⟩

theorem witness_SerialisedResult : ∃ (c : Word) (m : List Byte) (p : Word), c = crc16 m p :=
  ⟨crc16 [0x80] 0x1021, [0x80], 0x1021, rfl⟩

theorem witness_SetpolySplitsAMessage : (st 0x5555 0x1021 true).poly = 0x1021 := by decide

theorem witness_FlushOnceThenRead : (st 0 0x1021 false).poly = 0x1021 := by decide

theorem witness_StoresAreLittleEndian : ∃ (a b : List Byte) (i j : Nat),
    2 ≤ a.length ∧ 4 ≤ b.length ∧ 2 ≤ i ∧ 4 ≤ j := ⟨[1, 2], [1, 2, 3, 4], 2, 4, by decide⟩

theorem witness_ShortBuffersFault : ∃ a b : List Byte, a.length < 2 ∧ b.length < 4 := ⟨[1], [1, 2, 3], by decide⟩

theorem witness_LoadAfterStore : ∃ a b : List Byte, 2 ≤ a.length ∧ 4 ≤ b.length :=
  ⟨[1, 2], [1, 2, 3, 4], by decide⟩

/-- The boundary operands of AssemblerEncodesLines, in and out of range. -/
theorem witness_AssemblerEncodesLines :
    (0xFFFF ≤ 0xFFFF ∧ 1 ≤ 1 ∧ 0xFF ≤ 0xFF ∧ 0xFFFFFFFF ≤ 0xFFFFFFFF) ∧
    (0xFFFF < 0x10000 ∧ 1 < 2 ∧ 0xFF < 0x100 ∧ 0xFFFFFFFF < 0x100000000) ∧
    (∃ d ∈ [0xFF, 0x100], 0xFF < d) ∧ 16 < 17 ∧ 2 ^ 3 ≤ 8 := by decide

theorem witness_Crc16PseudoInstruction : ∀ d ∈ [0, 0xFF], d ≤ 0xFF := by decide

theorem witness_BitsAndZerosPseudoInstructions : ∃ v k i d : Nat, 1 ≤ k ∧ k ≤ 16 ∧ v < 2 ^ k ∧ i < k ∧ d ≤ 0xFF :=
  ⟨0xFFFF, 16, 15, 0xFF, by decide⟩

end Sys2Proof.Tests
end

/-! ## What the commands do, and what a step does to the registers -/

namespace Sys2Proof

@[simp] theorem Decoded.isIllegal_legal (i : Instr) : (Decoded.legal i).isIllegal = false := rfl

@[simp] theorem Decoded.isIllegal_illegal (why : Reject) : (Decoded.illegal why).isIllegal = true := rfl

/-- The commands that write `CRC` (R19); `Machine.exec_cases` says that they write nothing else and no other command
writes it. -/
def Instr.WritesCrc (i : Instr) : Prop := i = .init ∨ (∃ b, i = .bit b) ∨ (∃ d, i = .byte d) ∨ i = .flush

theorem Instr.WritesCrc.ne_nop {i : Instr} (h : i.WritesCrc) : i ≠ .nop := by
  obtain rfl | ⟨b, rfl⟩ | ⟨d, rfl⟩ | rfl := h <;> simp

theorem Instr.WritesCrc.ne_setpoly {i : Instr} (h : i.WritesCrc) (p : Word) : i ≠ .setpoly p := by
  obtain rfl | ⟨b, rfl⟩ | ⟨d, rfl⟩ | rfl := h <;> simp

end Sys2Proof

namespace Sys2Proof.Machine

open Sys2Proof.Claims

variable {s t : State}

/-! ### The host's next input -/

@[simp] theorem State.takeInput_crc (s : State) : s.takeInput.2.crc = s.crc := s.takeInput_frame.1

@[simp] theorem State.takeInput_poly (s : State) : s.takeInput.2.poly = s.poly := s.takeInput_frame.2.1

@[simp] theorem State.takeInput_err (s : State) : s.takeInput.2.err = s.err := s.takeInput_frame.2.2.1

@[simp] theorem State.takeInput_inProgress (s : State) : s.takeInput.2.inProgress = s.inProgress :=
  s.takeInput_frame.2.2.2.1

theorem State.takeInput_state (s : State) : s.takeInput.2 = { s with inputs := s.inputs.tail } := by
  cases h : s.inputs with
  | nil => rw [s.takeInput_nil h, List.tail_nil, ← h]
  | cons p rest => rw [s.takeInput_cons p rest h, List.tail_cons]

/-- What holds of a host that drives nothing holds of the first input, if there is one, exactly when it holds of the
input the step takes. -/
theorem State.forall_input_iff {P : PortInput → Prop} (hidle : P .idle) (s : State) :
    (∀ p rest, s.inputs = p :: rest → P p) ↔ P s.takeInput.1 := by
  cases h : s.inputs with
  | nil => simp [s.takeInput_nil h, hidle]
  | cons p rest => simp [s.takeInput_cons p rest h]

/-- What does not hold of a host that drives nothing holds of the first input, and there is one, exactly when it holds
of the input the step takes. -/
theorem State.exists_input_iff {P : PortInput → Prop} (hidle : ¬ P .idle) (s : State) :
    (∃ p rest, s.inputs = p :: rest ∧ P p) ↔ P s.takeInput.1 := by
  cases h : s.inputs with
  | nil => simp [s.takeInput_nil h, hidle]
  | cons p rest => simp [s.takeInput_cons p rest h]

theorem State.release_of_ready (h : s.inProgress = none) : s.release = s := by
  rw [State.release, ← h]

/-! ### One command -/

@[simp] theorem exec_nop (s : State) : exec .nop s = .next s := rfl

@[simp] theorem exec_init (s : State) : exec .init s = .next (s.writeCrc Config.initValue) := rfl

@[simp] theorem exec_setpoly (p : Word) (s : State) : exec (.setpoly p) s = .next (s.writePoly p) := rfl

@[simp] theorem exec_bit (b : Bit) (s : State) : exec (.bit b) s = .next (s.absorb [b]) := rfl

@[simp] theorem exec_byte (d : Byte) (s : State) : exec (.byte d) s = .next (s.absorb (byteBits d)) := rfl

@[simp] theorem exec_flush (s : State) : exec .flush s = .next (s.absorb flushBits) := rfl

/-- BIT, BYTE and FLUSH absorb a stream of bits that depends on no state (R53 to R55). -/
theorem exec_absorbs {i : Instr} (h : i = .flush ∨ (∃ b, i = .bit b) ∨ ∃ d, i = .byte d) :
    ∃ bs, ∀ s, exec i s = .next (s.absorb bs) := by
  obtain rfl | ⟨b, rfl⟩ | ⟨d, rfl⟩ := h
  · exact ⟨flushBits, exec_flush⟩
  · exact ⟨[b], exec_bit b⟩
  · exact ⟨byteBits d, exec_byte d⟩

/-- Everything a command can do (R19): NOP nothing, SETPOLY write its operand to `POLY`, the others write `CRC`. -/
theorem exec_cases (i : Instr) (s : State) :
    (i = .nop ∧ exec i s = .next s) ∨
      (∃ p, i = .setpoly p ∧ exec i s = .next (s.writePoly p)) ∨
      (i.WritesCrc ∧ ∃ v, exec i s = .next (s.writeCrc v)) := by
  cases i with
  | nop => exact .inl ⟨rfl, rfl⟩
  | setpoly p => exact .inr (.inl ⟨p, rfl, rfl⟩)
  | init => exact .inr (.inr ⟨.inl rfl, _, rfl⟩)
  | bit b => exact .inr (.inr ⟨.inr (.inl ⟨b, rfl⟩), _, rfl⟩)
  | byte d => exact .inr (.inr ⟨.inr (.inr (.inl ⟨d, rfl⟩)), _, rfl⟩)
  | flush => exact .inr (.inr ⟨.inr (.inr (.inr rfl)), _, rfl⟩)

/-! ### One accepted word -/

theorem execute_of_isIllegal {w : CmdWord} (h : (decode w).isIllegal = true) (s : State) :
    execute w s = .next s.raiseIllegalCommand := by
  cases hd : decode w with
  | legal i => simp [hd] at h
  | illegal why => exact execute_illegal hd s

/-- Everything an accepted word can do (R19, R72). -/
theorem execute_cases {w : CmdWord} (h : execute w s = .next t) :
    ((decode w).isIllegal = true ∧ t = s.raiseIllegalCommand) ∨
      (decode w = .legal .nop ∧ t = s) ∨
      (∃ p, decode w = .legal (.setpoly p) ∧ t = s.writePoly p) ∨
      (∃ i v, decode w = .legal i ∧ i.WritesCrc ∧ t = s.writeCrc v) := by
  cases hd : decode w with
  | illegal why =>
    rw [execute_illegal hd, Host.Outcome.next.injEq] at h
    exact .inl ⟨rfl, h.symm⟩
  | legal i =>
    rw [execute_legal hd] at h
    obtain ⟨rfl, he⟩ | ⟨p, rfl, he⟩ | ⟨hi, v, he⟩ := exec_cases i s <;>
      rw [he, Host.Outcome.next.injEq] at h
    · exact .inr (.inl ⟨rfl, h.symm⟩)
    · exact .inr (.inr (.inl ⟨p, rfl, h.symm⟩))
    · exact .inr (.inr (.inr ⟨i, v, rfl, hi, h.symm⟩))

/-- An accepted word raises `ERR` exactly when it is illegal, and never clears it (R13, R72). -/
theorem execute_err {w : CmdWord} (h : execute w s = .next t) : t.err = (s.err || (decode w).isIllegal) := by
  obtain ⟨hd, rfl⟩ | ⟨hd, rfl⟩ | ⟨p, hd, rfl⟩ | ⟨i, v, hd, -, rfl⟩ := execute_cases h <;> simp [hd]

theorem execute_crc_change {w : CmdWord} (h : execute w s = .next t) (hcrc : t.crc ≠ s.crc) :
    ∃ i, decode w = .legal i ∧ i.WritesCrc := by
  obtain ⟨-, rfl⟩ | ⟨-, rfl⟩ | ⟨p, -, rfl⟩ | ⟨i, v, hd, hi, -⟩ := execute_cases h
  · exact absurd rfl hcrc
  · exact absurd rfl hcrc
  · exact absurd rfl hcrc
  · exact ⟨i, hd, hi⟩

theorem execute_poly_change {w : CmdWord} (h : execute w s = .next t) (hpoly : t.poly ≠ s.poly) :
    decode w = .legal (.setpoly t.poly) := by
  obtain ⟨-, rfl⟩ | ⟨-, rfl⟩ | ⟨p, hd, rfl⟩ | ⟨i, v, -, -, rfl⟩ := execute_cases h
  · exact absurd rfl hpoly
  · exact absurd rfl hpoly
  · exact hd
  · exact absurd rfl hpoly

/-- What a word writes to the registers depends on the registers alone. -/
theorem execute_same_registers {w : CmdWord} {s' : State} (hcrc : s'.crc = s.crc) (hpoly : s'.poly = s.poly)
    (herr : s'.err = s.err) (h : execute w s' = .next t) :
    ∃ u, execute w s = .next u ∧ t.crc = u.crc ∧ t.poly = u.poly ∧ t.err = u.err := by
  obtain ⟨c, p, e, hw⟩ := execute_on_registers w s.crc s.poly s.err
  have hs' := hw s'.inProgress s'.inputs s'.draws
  rw [← hcrc, ← hpoly, ← herr] at hs'
  obtain rfl := Host.Outcome.next.inj (h.symm.trans hs')
  exact ⟨_, hw s.inProgress s.inputs s.draws, rfl, rfl, rfl⟩

/-! ### One step -/

/-- `completesNow` read off the input the step takes: an empty list of inputs is a host that presents nothing and waits
(log 2). -/
theorem completesNow_iff {w : CmdWord} :
    completesNow s w ↔
      (s.inProgress = some w ∧ s.takeInput.1.cmdValid = false ∧ s.takeInput.1.awaitReady = true) ∨
      (s.inProgress = none ∧ s.takeInput.1.cmdValid = true ∧ s.takeInput.1.awaitReady = true ∧
        s.takeInput.1.cmdIn = w) := by
  rw [completesNow, State.forall_input_iff (P := fun p => p.cmdValid = false ∧ p.awaitReady = true) ⟨rfl, rfl⟩,
    State.exists_input_iff (P := fun p => p.cmdValid = true ∧ p.awaitReady = true ∧ p.cmdIn = w)
      (by simp [PortInput.idle])]

/-- A step that takes a word to its end executes it on the state in which the input is taken and nothing is in
progress. -/
theorem step_of_completesNow {w : CmdWord} (hr : s.takeInput.1.rst = false) (hc : completesNow s w) :
    step s = execute w s.takeInput.2.release := by
  obtain ⟨hb, hv, ha⟩ | ⟨hb, hv, ha, rfl⟩ := completesNow_iff.mp hc
  · rw [step, stepInput, drive_busy hr (s.takeInput_inProgress.trans hb)]
    simp [driveBusy, hv, ha]
  · have hready := s.takeInput_inProgress.trans hb
    rw [step, stepInput, drive_ready hr hready, State.release_of_ready hready]
    simp [driveReady, hv, ha]

/-- A step without reset that takes no word to its end leaves the registers as they are. -/
theorem step_registers_of_not_completesNow (hr : s.takeInput.1.rst = false) (hc : ∀ w, ¬ completesNow s w)
    (h : step s = .next t) : t.crc = s.crc ∧ t.poly = s.poly ∧ t.err = s.err := by
  simp only [completesNow_iff] at hc
  obtain ⟨hreset, -⟩ | ⟨-, hb, hready⟩ | ⟨w, -, hb, hbusy⟩ :=
    step_cases (p := s.takeInput.1) (s' := s.takeInput.2) rfl h
  · simp [hr] at hreset
  · obtain ⟨-, ho⟩ | ⟨hv, ha, -⟩ | ⟨-, -, ho⟩ := hready
    · obtain rfl := Host.Outcome.next.inj ho
      simp
    · exact absurd (.inr ⟨hb, hv, ha, rfl⟩) (hc _)
    · obtain rfl := Host.Outcome.next.inj ho
      simp
  · obtain ⟨-, ho⟩ | ⟨hv, ha, -⟩ | ⟨-, -, ho⟩ := hbusy
    · cases ho
    · exact absurd (.inl ⟨hb, hv, ha⟩) (hc _)
    · obtain rfl := Host.Outcome.next.inj ho
      simp

theorem step_err_of_reset (hr : s.takeInput.1.rst = true) (h : step s = .next t) : t.err = false := by
  rw [step, stepInput, drive_reset _ hr] at h
  obtain rfl := Host.Outcome.next.inj h
  rfl

/-- `ERR` after a step that takes a word to its end. -/
theorem step_err_of_completesNow {w : CmdWord} (hr : s.takeInput.1.rst = false) (hc : completesNow s w)
    (h : step s = .next t) : t.err = (s.err || (decode w).isIllegal) := by
  rw [step_of_completesNow hr hc] at h
  simpa using execute_err h

/-- With nothing in progress, nothing presented and no reset a step takes the input and does no more (log 2). -/
theorem step_ready_idle (hb : s.inProgress = none) (hr : s.takeInput.1.rst = false)
    (hv : s.takeInput.1.cmdValid = false) : step s = .next { s with inputs := s.inputs.tail } := by
  rw [step, stepInput, drive_ready hr (s.takeInput_inProgress.trans hb), ← State.takeInput_state]
  simp [driveReady, hv]

/-- A word that is presented by a host that waits, to a machine with nothing in progress, is executed in that step
(R15). -/
theorem step_presented {p : PortInput} {rest : List PortInput} (hb : s.inProgress = none)
    (hin : s.inputs = p :: rest) (hr : p.rst = false) (hv : p.cmdValid = true) (ha : p.awaitReady = true) :
    step s = execute p.cmdIn { s with inputs := rest } := by
  rw [step_ready hin hr hb]
  simp [driveReady, hv, ha]

/-- A command that the table's decoder reads is what the word itself decodes to. -/
theorem decode_tableWord {nbits w : Nat} {i : Instr} (h : decodeTableWord nbits w = some i) :
    decode (tableWord nbits w) = .legal i := by
  simp only [decodeTableWord, bytesOfWord, decodeBytes, wordOfBytes_bytes] at h
  cases hd : decode (tableWord nbits w) with
  | legal j => simpa [hd] using h
  | illegal why => simp [hd] at h

theorem State.outputs_cmdReady (s : State) : s.outputs.cmdReady = s.cmdReady := by
  cases h : s.inProgress <;> simp [State.outputs, State.cmdReady, h]

theorem State.outputs_of_ready (h : s.inProgress = none) : s.outputs = ⟨s.crc, s.poly, s.err, true⟩ := by
  simp [State.outputs, h]

end Sys2Proof.Machine

/-! ## The statements about the state -/

namespace Sys2Proof.Proofs

open Sys2Proof.Machine Sys2Proof.Claims

/-- Settles O18, by what each kind of command can do. -/
theorem commandFrame : Obligations.CommandFrame := by
  intro i s
  obtain ⟨rfl, h⟩ | ⟨p, rfl, h⟩ | ⟨hi, v, h⟩ := exec_cases i s
  · exact ⟨_, h, by simp⟩
  · exact ⟨_, h, by simp⟩
  · exact ⟨_, h, by simp [hi.ne_nop, hi.ne_setpoly]⟩

/-- Settles O19: each clause names the value written. -/
theorem accessMatrix : Obligations.AccessMatrix := by
  refine ⟨exec_nop, fun s1 s2 => ⟨_, exec_init s1, exec_init s2⟩,
    fun p s1 s2 => ⟨p, exec_setpoly p s1, exec_setpoly p s2⟩, ?absorbing,
    fun w s h => execute_of_isIllegal h s, fun s1 s2 => ⟨rfl, rfl, rfl⟩, fun s p h => drive_reset s h⟩
  case absorbing =>
    intro i s1 s2 hi hcrc hpoly
    obtain ⟨bs, h⟩ := exec_absorbs hi
    refine ⟨absorbBits s1.crc bs s1.poly, h s1, ?_⟩
    rw [h s2, State.absorb, hcrc, hpoly]
    rfl

/-- Settles O21, by whether the step takes a word to its end: only then can `ERR` change, and then by `execute_err`. -/
theorem errIsStickyUntilReset : Obligations.ErrIsStickyUntilReset := by
  intro s t h
  rw [State.exists_input_iff (P := fun p => p.rst = true) (by decide),
    State.forall_input_iff (P := fun p => p.rst = false) rfl]
  refine ⟨fun hr => step_err_of_reset hr h, fun hr => ?_⟩
  by_cases hc : ∃ w, completesNow s w
  · obtain ⟨w, hc⟩ := hc
    have herr := step_err_of_completesNow hr hc h
    refine ⟨fun hs => by simp [herr, hs], fun hs ht => ⟨w, by simpa [herr, hs] using ht, ?_⟩⟩
    obtain ⟨hb, -⟩ | ⟨hb, p, rest, hin, hv, -, hw⟩ := hc
    · exact .inl hb
    · exact .inr ⟨hb, p, rest, hin, hv, hw⟩
  · obtain ⟨-, -, herr⟩ := step_registers_of_not_completesNow hr (not_exists.mp hc) h
    exact ⟨fun hs => herr.trans hs, fun hs ht => by simp [herr, hs] at ht⟩

/-- Settles O55: a step that takes a word to its end executes it, any other leaves the registers. -/
theorem onlyTheirCommandsWriteTheRegisters : Obligations.OnlyTheirCommandsWriteTheRegisters := by
  intro s t h hr
  rw [State.forall_input_iff (P := fun p => p.rst = false) rfl] at hr
  have completed : ∀ w, completesNow s w → execute w s.takeInput.2.release = .next t :=
    fun w hc => step_of_completesNow hr hc ▸ h
  have idle : (∀ w, ¬ completesNow s w) → t.crc = s.crc ∧ t.poly = s.poly ∧ t.err = s.err :=
    fun hc => step_registers_of_not_completesNow hr hc h
  refine ⟨fun hcrc => ?_, fun hpoly => ?_, idle, fun w hc => ?_⟩
  · obtain ⟨w, hc⟩ := not_forall_not.mp fun hc => hcrc (idle hc).1
    obtain ⟨i, hi⟩ := execute_crc_change (completed w hc) (by simpa using hcrc)
    exact ⟨w, i, hc, hi⟩
  · obtain ⟨w, hc⟩ := not_forall_not.mp fun hc => hpoly (idle hc).2.1
    exact ⟨w, hc, execute_poly_change (completed w hc) (by simpa using hpoly)⟩
  · exact execute_same_registers (by simp) (by simp) (by simp) (completed w hc)

/-- Settles O56: the next state differs in the list of inputs alone, which no output shows. -/
theorem registersHoldBetweenCommands : Obligations.RegistersHoldBetweenCommands := by
  intro s hb hin
  have quiet : s.takeInput.1.rst = false ∧ s.takeInput.1.cmdValid = false := by
    obtain hin | ⟨p, rest, hin, hr, hv⟩ := hin
    · rw [s.takeInput_nil hin]
      exact ⟨rfl, rfl⟩
    · rw [s.takeInput_cons p rest hin]
      exact ⟨hr, hv⟩
  have hstep := step_ready_idle hb quiet.1 quiet.2
  refine ⟨hstep, fun t ht => ?_⟩
  obtain rfl := Host.Outcome.next.inj (hstep.symm.trans ht)
  rfl

/-- Settles O1: the constants of Config are R20's values. -/
theorem resetHoldsTheSpecValues : Obligations.ResetHoldsTheSpecValues :=
  ⟨rfl, rfl, rfl, State.reset_cmdReady⟩

/-- Settles O23: the presented word is executed in the step, and a legal word runs its command. -/
theorem stepRunsTheDecodedCommand : Obligations.StepRunsTheDecodedCommand := by
  intro s p rest i hb hin hr hv ha hd
  rw [step_presented hb hin hr hv ha, execute_legal hd]

/-- Settles O24: the placed word is presented by a host that waits. -/
theorem fetchWordRunsNext : Obligations.FetchWordRunsNext := by
  intro s nbits w i h
  exact stepRunsTheDecodedCommand (s.withFetchWord nbits w) (.command (tableWord nbits w)) s.inputs i
    rfl rfl rfl rfl rfl (decode_tableWord h)

/-- Settles O30, by the outputs of a state with nothing in progress. -/
theorem outputsShowTheRegisters : Obligations.OutputsShowTheRegisters := by
  intro s
  refine ⟨by rw [State.outputs_cmdReady, State.cmdReady_iff], fun h => ?_⟩
  rw [State.outputs_of_ready h]
  exact ⟨rfl, rfl, rfl⟩

end Sys2Proof.Proofs

/-! ## Little-endian bytes: the byte transport and the host's helpers -/

namespace Sys2Proof

/-- Bits cut from a value as a number: the bits below them divided away, those above them dropped. -/
theorem extractLsb'_eq_ofNat_div {n : Nat} (v : BitVec n) (start len : Nat) :
    v.extractLsb' start len = BitVec.ofNat len (v.toNat / 2 ^ start) := by
  rw [BitVec.extractLsb', Nat.shiftRight_eq_div_pow]

theorem toNat_append_eq_mul_add {m n : Nat} (hi : BitVec m) (lo : BitVec n) :
    (hi ++ lo).toNat = hi.toNat * 2 ^ n + lo.toNat := by
  rw [BitVec.toNat_append, ← Nat.shiftLeft_add_eq_or_of_lt lo.isLt, Nat.shiftLeft_eq]

/-- The two bytes of a 16-bit value make the value again. -/
theorem append_bytes (v : BitVec 16) : v.extractLsb' 8 8 ++ v.extractLsb' 0 8 = v :=
  (BitVec.extractLsb'_append_extractLsb'_eq_extractLsb' rfl).trans BitVec.extractLsb'_eq_self

/-- The bytes of the transport, written out as numbers (R33). -/
theorem bytesOfWord_eq_ofNat (w : CmdWord) :
    bytesOfWord w = [BitVec.ofNat 8 w.toNat, BitVec.ofNat 8 (w.toNat / 256), BitVec.ofNat 8 (w.toNat / 65536),
      BitVec.ofNat 8 (w.toNat / 16777216)] := by
  simp [bytesOfWord, extractLsb'_eq_ofNat_div]

theorem decodeBytes_bytesOfWord (w : CmdWord) (rest : List Byte) :
    decodeBytes (bytesOfWord w ++ rest) = some (decode w, rest) := by
  simp [bytesOfWord, decodeBytes, wordOfBytes_bytes]

end Sys2Proof

namespace Sys2Proof.Machine

variable {buf : List Byte}

theorem store16_of_le (v : BitVec 16) (h : 2 ≤ buf.length) :
    store16 v buf = .ok (v.extractLsb' 0 8 :: v.extractLsb' 8 8 :: buf.drop 2) := by
  match buf, h with
  | _ :: _ :: _, _ => rfl

theorem store32_of_le (v : BitVec 32) (h : 4 ≤ buf.length) :
    store32 v buf = .ok (bytesOfWord v ++ buf.drop 4) := by
  match buf, h with
  | _ :: _ :: _ :: _ :: _, _ => rfl

theorem store16_of_lt (v : BitVec 16) (h : buf.length < 2) : store16 v buf = .error (.shortBuffer 2 buf.length) := by
  match buf, h with
  | [], _ | [_], _ => rfl

theorem store32_of_lt (v : BitVec 32) (h : buf.length < 4) : store32 v buf = .error (.shortBuffer 4 buf.length) := by
  match buf, h with
  | [], _ | [_], _ | [_, _], _ | [_, _, _], _ => rfl

theorem load16_of_lt (h : buf.length < 2) : load16 buf = .error (.shortBuffer 2 buf.length) := by
  match buf, h with
  | [], _ | [_], _ => rfl

theorem load32_of_lt (h : buf.length < 4) : load32 buf = .error (.shortBuffer 4 buf.length) := by
  match buf, h with
  | [], _ | [_], _ | [_, _], _ | [_, _, _], _ => rfl

@[simp] theorem load16_cons (b0 b1 : Byte) (rest : List Byte) : load16 (b0 :: b1 :: rest) = .ok (b1 ++ b0) := rfl

@[simp] theorem load32_cons (b0 b1 b2 b3 : Byte) (rest : List Byte) :
    load32 (b0 :: b1 :: b2 :: b3 :: rest) = .ok (wordOfBytes b0 b1 b2 b3) := rfl

end Sys2Proof.Machine

namespace Sys2Proof.Proofs

open Sys2Proof.Machine

/-- Settles O7: the numbers are the bytes of the word, which make it again. -/
theorem commandBytesAreLittleEndian : Obligations.CommandBytesAreLittleEndian := by
  intro w rest
  simpa [bytesOfWord_eq_ofNat] using decodeBytes_bytesOfWord w rest

/-- Settles O47: the buffer written is the value's bytes followed by the bytes that were there. -/
theorem storesAreLittleEndian : Obligations.StoresAreLittleEndian := by
  refine ⟨fun v buf h => ⟨_, store16_of_le v h, ?len16, ?_, ?_, ?rest16⟩,
    fun v buf h => ⟨_, store32_of_le v h, ?len32, ?_, ?_, ?_, ?_, ?rest32⟩, rfl, rfl⟩
  case len16 => simp; omega
  case len32 => simp [bytesOfWord]; omega
  case rest16 =>
    intro i hi
    obtain ⟨k, rfl⟩ := Nat.exists_eq_add_of_le' hi
    simp [Nat.add_comm]
  case rest32 =>
    intro i hi
    obtain ⟨k, rfl⟩ := Nat.exists_eq_add_of_le' hi
    simp [bytesOfWord, Nat.add_comm]
  all_goals simp [bytesOfWord, extractLsb'_eq_ofNat_div]

/-- Settles O48: appending bytes is adding their numbers, each in its place. -/
theorem loadsAreLittleEndian : Obligations.LoadsAreLittleEndian := by
  refine ⟨fun b0 b1 rest => ⟨_, load16_cons b0 b1 rest, ?_⟩,
    fun b0 b1 b2 b3 rest => ⟨_, load32_cons b0 b1 b2 b3 rest, ?_⟩, rfl, rfl⟩
  · rw [toNat_append_eq_mul_add]
    omega
  · simp only [wordOfBytes, toNat_append_eq_mul_add]
    omega

/-- Settles O49, by what each helper answers for a buffer that is too short. -/
theorem shortBuffersFault : Obligations.ShortBuffersFault :=
  ⟨fun v _ h => ⟨store16_of_lt v h, load16_of_lt h⟩, fun v _ h => ⟨store32_of_lt v h, load32_of_lt h⟩⟩

/-- Settles O50: the bytes stored make the value again. -/
theorem loadAfterStore : Obligations.LoadAfterStore := by
  refine ⟨fun v buf h => ?_, fun v buf h => ?_⟩
  · rw [store16_of_le v h, Except.bind, load16_cons, append_bytes]
  · rw [store32_of_le v h, Except.bind, bytesOfWord, List.cons_append, List.cons_append, List.cons_append,
      List.cons_append, load32_cons, wordOfBytes_bytes]

end Sys2Proof.Proofs

/-! ## Streams of message bits, and the residue -/

namespace Sys2Proof.Machine

theorem byteBits_getElem? (d : Byte) {i : Nat} (hi : i < 8) : (byteBits d)[i]? = some (d.getLsbD (7 - i)) := by
  simp [byteBits, Config.byteBits, hi]

/-- R24: bit 8j + i of the stream is bit 7 - i of byte j. -/
theorem messageBits_getElem? {buf : List Byte} {j i : Nat} {d : Byte} (hd : buf[j]? = some d) (hi : i < 8) :
    (messageBits buf)[8 * j + i]? = some (d.getLsbD (7 - i)) := by
  induction buf generalizing j with
  | nil => simp at hd
  | cons e buf ih =>
    rw [messageBits_cons]
    cases j with
    | zero =>
      obtain rfl : e = d := by simpa using hd
      rw [Nat.mul_zero, Nat.zero_add, List.getElem?_append_left (by simpa using hi), byteBits_getElem? e hi]
    | succ j =>
      rw [List.getElem?_append_right (by rw [byteBits_length]; omega), byteBits_length,
        show 8 * (j + 1) + i - 8 = 8 * j + i by omega]
      exact ih (by simpa using hd)

/-- `crc16` as one stream of bits: the message's, then those of the flush. -/
theorem crc16_eq_absorbBits (buf : List Byte) (p : Word) :
    crc16 buf p = absorbBits Config.initValue (messageBits buf ++ flushBits) p := by
  rw [crc16, flushRounds, foldl_absorb_bytes, absorbBits_append]

/-- The round as a sum over GF(2): of the shifted register, the message bit and the feedback. -/
theorem crcRound_eq_xor (r : Word) (b : Bit) (p : Word) :
    crcRound r b p = (r <<< 1) ^^^ (if b then 1#16 else 0#16) ^^^ (if r.getLsbD 15 then p else 0#16) := by
  have or_one : (r <<< 1) ||| 1#16 = (r <<< 1) ^^^ 1#16 := by
    ext i hi
    cases i <;> simp
  cases b <;> cases hr : r.getLsbD 15 <;> simp [crcRound, hr, or_one, -BitVec.getLsbD_eq_getElem]

/-- The round is linear in register and bit (R61). -/
theorem crcRound_xor (r1 r2 : Word) (b1 b2 : Bit) (p : Word) :
    crcRound (r1 ^^^ r2) (b1 ^^ b2) p = crcRound r1 b1 p ^^^ crcRound r2 b2 p := by
  have bits : (if (b1 ^^ b2) then 1#16 else 0#16) = (if b1 then 1#16 else 0#16) ^^^ (if b2 then 1#16 else 0#16) := by
    cases b1 <;> cases b2 <;> rfl
  have feedback : (if (r1 ^^^ r2).getLsbD 15 then p else 0#16) =
      (if r1.getLsbD 15 then p else 0#16) ^^^ (if r2.getLsbD 15 then p else 0#16) := by
    rw [BitVec.getLsbD_xor]
    cases r1.getLsbD 15 <;> cases r2.getLsbD 15 <;> simp
  simp only [crcRound_eq_xor, BitVec.shiftLeft_xor_distrib, bits, feedback]
  ac_rfl

/-- Absorbing is linear in the register and the stream. -/
theorem absorbBits_xor {as bs : List Bit} (h : as.length = bs.length) (r1 r2 p : Word) :
    absorbBits (r1 ^^^ r2) (List.zipWith (· ^^ ·) as bs) p = absorbBits r1 as p ^^^ absorbBits r2 bs p := by
  induction as generalizing bs r1 r2 with
  | nil => cases bs with
    | nil => rfl
    | cons b bs => simp at h
  | cons a as ih => cases bs with
    | nil => simp at h
    | cons b bs => simp [crcRound_xor, ih (Nat.succ.inj h)]

/-- While fewer than 16 bits of a word are in a register that held 0, its carry is 0: the next bit of the word shifts
in without feedback. -/
theorem crcRound_ushiftRight (c p : Word) {k : Nat} (hk : k < 16) :
    crcRound (c >>> (k + 1)) (c.getLsbD k) p = c >>> k := by
  have no_carry : (c >>> (k + 1)).getLsbD 15 = false := by
    rw [BitVec.getLsbD_ushiftRight]
    exact BitVec.getLsbD_of_ge c _ (by omega)
  rw [crcRound_eq_xor, no_carry]
  ext i hi
  cases i with
  | zero => cases h : c.getLsbD k <;> simp [h]
  | succ i => cases h : c.getLsbD k <;> simp [Nat.add_comm, Nat.add_left_comm]

/-- The last k bits of a word, most significant first, fed to a register that holds the others give the word. -/
theorem absorbBits_ushiftRight (c p : Word) {k : Nat} (hk : k ≤ 16) :
    absorbBits (c >>> k) ((List.range k).reverse.map c.getLsbD) p = c := by
  induction k with
  | zero => simp
  | succ k ih =>
    rw [List.range_succ, List.reverse_append, List.reverse_singleton, List.singleton_append, List.map_cons,
      absorbBits_cons, crcRound_ushiftRight c p hk]
    exact ih (by omega)

theorem messageBits_serialiseResult_be (c : Word) :
    messageBits (serialiseResult .be c) = (List.range 16).reverse.map c.getLsbD := by
  simp [serialiseResult, byteBits_eq, List.range, List.range.loop]

/-- Absorbing any stream is absorbing as many zero bits and adding what the stream gives from 0. -/
theorem absorbBits_eq_zeros_xor (r p : Word) (bs : List Bit) :
    absorbBits r bs p = absorbBits r (List.replicate bs.length false) p ^^^ absorbBits 0#16 bs p := by
  have zeros : List.zipWith (· ^^ ·) (List.replicate bs.length false) bs = bs := by
    apply List.ext_getElem <;> simp
  rw [← absorbBits_xor List.length_replicate, zeros, BitVec.xor_zero]

/-- Absorbing a word, high byte first, is the flush with the word added. -/
theorem absorbBits_serialiseResult_be (r c p : Word) :
    absorbBits r (messageBits (serialiseResult .be c)) p = flushRounds r p ^^^ c := by
  have loaded := absorbBits_ushiftRight c p (le_refl 16)
  rw [BitVec.ushiftRight_eq_zero (le_refl 16), ← messageBits_serialiseResult_be] at loaded
  rw [absorbBits_eq_zeros_xor, loaded]
  rfl

theorem absorbBits_zero_zeros (p : Word) (n : Nat) : absorbBits 0#16 (List.replicate n false) p = 0#16 := by
  induction n with
  | zero => rfl
  | succ n ih =>
    have round : crcRound 0#16 false p = 0#16 := by simp [crcRound]
    rw [List.replicate_succ, absorbBits_cons, round, ih]

/-- A message followed by its CRC, high byte first, has the CRC 0 (R68): the CRC's own bytes cancel what the flush of
the message gives. -/
theorem crc16_append_serialiseResult_be (m : List Byte) (p : Word) :
    crc16 (m ++ serialiseResult .be (crc16 m p)) p = 0#16 := by
  have cancel : absorbBits (absorbBits Config.initValue (messageBits m) p)
      (messageBits (serialiseResult .be (crc16 m p))) p = 0#16 := by
    rw [absorbBits_serialiseResult_be, flushRounds, ← absorbBits_append, ← crc16_eq_absorbBits, BitVec.xor_self]
  rw [crc16_eq_absorbBits, messageBits_append, absorbBits_append, absorbBits_append, cancel]
  exact absorbBits_zero_zeros p 16

end Sys2Proof.Machine

namespace Sys2Proof.Proofs

open Sys2Proof.Machine

/-- Settles O33, by the stream's length and its bits. -/
theorem messageBitsAreMsbFirst : Obligations.MessageBitsAreMsbFirst :=
  fun buf => ⟨messageBits_length buf, fun _ _ _ hd hi => messageBits_getElem? hd hi⟩

/-- Settles O51: `le` is the order of `store16`, and `be` that of the residue law. -/
theorem serialisedResult : Obligations.SerialisedResult := by
  refine fun c => ⟨rfl, fun m p hc => ?_⟩
  rw [hc]
  exact crc16_append_serialiseResult_be m p

end Sys2Proof.Proofs

/-! ## The order and the completion of commands -/

namespace Sys2Proof.Machine

open Sys2Proof.Safety Sys2Proof.Claims

variable {s t : State}

/-! ### What executing a word leaves alone -/

theorem execute_frame {w : CmdWord} (h : execute w s = .next t) :
    t.inProgress = s.inProgress ∧ t.inputs = s.inputs ∧ t.draws = s.draws := by
  obtain ⟨c, p, e, hw⟩ := execute_writes_registers w s
  obtain rfl := Host.Outcome.next.inj (h.symm.trans hw)
  exact ⟨rfl, rfl, rfl⟩

/-- What the host drives later has no part in executing a word. -/
theorem execute_with_inputs {w : CmdWord} (h : execute w s = .next t) (ins : List PortInput) :
    execute w { s with inputs := ins } = .next { t with inputs := ins } := by
  obtain ⟨c, p, e, hw⟩ := execute_on_registers w s.crc s.poly s.err
  obtain rfl := Host.Outcome.next.inj (h.symm.trans (hw s.inProgress s.inputs s.draws))
  exact hw s.inProgress ins s.draws

/-! ### Words executed twice -/

/-- An illegal word, NOP, INIT and SETPOLY write constants: executed on what they leave they leave it (R34). -/
theorem execute_again {w : CmdWord}
    (hw : (decode w).isIllegal = true ∨ decode w = .legal .nop ∨ decode w = .legal .init ∨
      ∃ p, decode w = .legal (.setpoly p)) (s : State) :
    ∃ t, execute w s = .next t ∧ execute w t = .next t := by
  obtain hd | hd | hd | ⟨p, hd⟩ := hw
  · exact ⟨_, execute_of_isIllegal hd s, execute_of_isIllegal hd _⟩
  · exact ⟨_, execute_legal hd s, execute_legal hd s⟩
  · exact ⟨_, execute_legal hd s, execute_legal hd _⟩
  · exact ⟨_, execute_legal hd s, execute_legal hd _⟩

/-- A word that absorbs a stream of bits is not idempotent where absorbing the stream again changes `CRC`. -/
theorem executeAll_twice_ne {w : CmdWord} {i : Instr} {bs : List Bit} (hd : decode w = .legal i)
    (hi : ∀ s, exec i s = .next (s.absorb bs))
    {v : Word} (once : absorbBits s.crc bs s.poly = v) (twice : absorbBits v bs s.poly ≠ v) :
    executeAll [w, w] s ≠ executeAll [w] s := by
  have run (s : State) : execute w s = .next (s.absorb bs) := by rw [execute_legal hd, hi]
  rw [executeAll_cons (run s), executeAll_cons (run _), executeAll_cons (run s)]
  intro h
  have hcrc := congrArg State.crc (Host.Outcome.next.inj h)
  simp only [State.absorb_crc, State.absorb_poly, once] at hcrc
  exact twice hcrc

/-! ### Runs -/

theorem runSteps_one (s : State) : runSteps 1 s = step s := by
  cases h : step s <;> simp [runSteps, h]

theorem step_presentWithoutWaiting {w : CmdWord} {rest : List PortInput} (hb : s.inProgress = none)
    (hin : s.inputs = presentWithoutWaiting w :: rest) : step s = .next (State.hold { s with inputs := rest } w) :=
  step_ready hin rfl hb

theorem step_lettingTimePass {w : CmdWord} {rest : List PortInput} (hb : s.inProgress = some w)
    (hin : s.inputs = lettingTimePass :: rest) : step s = .next (State.stayBusy { s with inputs := rest }) :=
  step_busy hin rfl hb

theorem step_completes {w : CmdWord} {rest : List PortInput} (hb : s.inProgress = some w)
    (hin : s.inputs = .idle :: rest) : step s = execute w (State.release { s with inputs := rest }) :=
  step_busy hin rfl hb

/-- A word in progress, after n steps in which time passes and one that waits, has the effect it has at once (R34,
R90). -/
theorem runSteps_of_held {w : CmdWord} {rest : List PortInput} {n : Nat} (hb : s.inProgress = some w)
    (hin : s.inputs = List.replicate n lettingTimePass ++ .idle :: rest) :
    runSteps (n + 1) s = execute w { s with inProgress := none, inputs := rest, draws := s.draws + n } := by
  induction n generalizing s with
  | zero =>
    rw [runSteps_one, step_completes hb hin]
    rfl
  | succ n ih =>
    rw [List.replicate_succ, List.cons_append] at hin
    rw [runSteps_succ (step_lettingTimePass hb hin), ih (s := State.stayBusy { s with inputs := _ }) hb rfl]
    simp [State.stayBusy, Nat.add_assoc, Nat.add_comm 1]

/-- Presented words run in order (R35): a waited step executes one word and leaves nothing in progress. -/
theorem runSteps_commands (ws : List CmdWord) (rest : List PortInput) (hb : s.inProgress = none)
    (hin : s.inputs = ws.map .command ++ rest) :
    runSteps ws.length s = executeAll ws { s with inputs := rest } := by
  induction ws generalizing s with
  | nil =>
    obtain rfl : s.inputs = rest := hin
    rfl
  | cons w ws ih =>
    have hstep := step_presented hb hin rfl rfl rfl
    obtain ⟨c, p, e, hw⟩ := execute_writes_registers w { s with inputs := ws.map .command ++ rest }
    rw [List.length_cons, runSteps_succ (hstep.trans hw), executeAll_cons (execute_with_inputs hw rest)]
    exact ih hb rfl

end Sys2Proof.Machine

namespace Sys2Proof.Proofs

open Sys2Proof.Machine Sys2Proof.Safety Sys2Proof.Claims

/-- Settles O28, by what a step can do: only a word held or time passing leaves a word in progress, and in neither did
the host wait. -/
theorem readyRisesWhenAwaited : Obligations.ReadyRisesWhenAwaited := by
  intro s t h
  rw [State.cmdReady_iff, State.forall_input_iff (P := fun p => p.awaitReady = true) rfl,
    State.forall_input_iff (P := fun p => p.rst = false → p.cmdValid = true → p.awaitReady = false →
      t.inProgress = some p.cmdIn ∧ t.crc = s.crc ∧ t.poly = s.poly ∧ t.err = s.err) (by simp [PortInput.idle])]
  obtain ⟨hr, ho⟩ | ⟨-, hb, ⟨hv, ho⟩ | ⟨-, ha, ho⟩ | ⟨-, ha, ho⟩⟩ |
      ⟨w, -, -, ⟨-, ho⟩ | ⟨hv, ha, ho⟩ | ⟨hv, ha, ho⟩⟩ :=
    step_cases (p := s.takeInput.1) (s' := s.takeInput.2) rfl h
  · obtain rfl := Host.Outcome.next.inj ho
    simp [hr]
  · obtain rfl := Host.Outcome.next.inj ho
    simp [hb, hv]
  · obtain ⟨hprogress, -⟩ := execute_frame ho.symm
    simp [hprogress, hb, ha]
  · obtain rfl := Host.Outcome.next.inj ho
    simp [ha]
  · cases ho
  · obtain ⟨hprogress, -⟩ := execute_frame ho.symm
    simp [hprogress, hv]
  · obtain rfl := Host.Outcome.next.inj ho
    simp [hv, ha]

/-- Settles O29: the word is held in the first step, and `runSteps_of_held` says what becomes of it. -/
theorem heldCommandCompletesAtomically : Obligations.HeldCommandCompletesAtomically := by
  intro s w n rest hb hin
  rw [runSteps_succ (step_presentWithoutWaiting hb hin), runSteps_of_held (w := w) rfl rfl]
  simp [State.hold, ← hb, Nat.add_assoc, Nat.add_comm 1]

/-- Settles O31: `runSteps_commands`. -/
theorem commandsRunInAcceptanceOrder : Obligations.CommandsRunInAcceptanceOrder :=
  fun ws _ rest hb hin => runSteps_commands ws rest hb hin

/-- Settles O32: the idempotent commands by `execute_again`; the state after reset shows that the others are not. -/
theorem repeatedCommands : Obligations.RepeatedCommands := by
  refine ⟨fun w s hw => ?_,
    ⟨.reset, executeAll_twice_ne (i := .bit true) (v := 0xEFDE#16) (by decide) (exec_bit _) (by decide)
      (by decide)⟩,
    ⟨.reset, executeAll_twice_ne (i := .byte 0x41#8) (v := 0xE1B1#16) (by decide) (exec_byte _) (by decide)
      (by decide)⟩,
    ⟨.reset, executeAll_twice_ne (i := .flush) (v := 0x1D0F#16) (by decide) exec_flush (by decide +kernel)
      (by decide +kernel)⟩⟩
  obtain ⟨t, hs, ht⟩ := execute_again hw s
  rw [executeAll_cons hs, executeAll_cons ht, executeAll_cons hs]

end Sys2Proof.Proofs

/-! ## The encoding: fields, commands, and the rows of the opcode table -/

namespace Sys2Proof

open Machine

/-! ### The operand fields as numbers -/

theorem bitExcess_eq_zero_iff (imm : Word) : bitExcess imm = 0 ↔ imm.toNat < 2 := by
  rw [bitExcess, extractLsb'_eq_ofNat_div, ← BitVec.toNat_inj, BitVec.toNat_ofNat]
  simp
  omega

theorem byteExcess_eq_zero_iff (imm : Word) : byteExcess imm = 0 ↔ imm.toNat < 256 := by
  rw [byteExcess, extractLsb'_eq_ofNat_div, ← BitVec.toNat_inj, BitVec.toNat_ofNat]
  simp
  omega

theorem bitOperand_eq_beq {imm : Word} (h : imm.toNat < 2) : bitOperand imm = (imm.toNat == 1) := by
  rw [bitOperand, BitVec.getLsbD, Nat.testBit_zero, Nat.mod_eq_of_lt h]
  rfl

theorem byteOperand_eq_ofNat (imm : Word) : byteOperand imm = BitVec.ofNat 8 imm.toNat := by
  rw [byteOperand, extractLsb'_eq_ofNat_div, pow_zero, Nat.div_one]

/-- The `IMM16` of a BIT holds its operand and nothing else (R40, R41). -/
theorem setWidth_bitOperand {imm : Word} (h : bitExcess imm = 0) :
    BitVec.setWidth 16 (BitVec.ofBool (bitOperand imm)) = imm := by
  rw [bitExcess_eq_zero_iff] at h
  rw [bitOperand_eq_beq h]
  obtain rfl | rfl : imm = 0#16 ∨ imm = 1#16 := by bv_omega
  · rfl
  · rfl

/-- The `IMM16` of a BYTE holds its operand and nothing else (R40, R41). -/
theorem setWidth_byteOperand {imm : Word} (h : byteExcess imm = 0) : BitVec.setWidth 16 (byteOperand imm) = imm := by
  rw [byteExcess_eq_zero_iff] at h
  rw [byteOperand_eq_ofNat]
  bv_omega

@[simp] theorem byteOperand_setWidth (d : Byte) : byteOperand (BitVec.setWidth 16 d) = d := by
  rw [byteOperand_eq_ofNat]
  bv_omega

@[simp] theorem byteExcess_setWidth (d : Byte) : byteExcess (BitVec.setWidth 16 d) = 0 := by
  rw [byteExcess_eq_zero_iff]
  bv_omega

/-! ### Decoding and encoding -/

theorem decode_of_rsv_eq_zero {w : CmdWord} (h : rsvField w = 0) :
    decode w = decodeOp (opField w).toNat (immField w) := if_neg (not_not.mpr h)

theorem decode_of_rsv_ne_zero {w : CmdWord} (h : rsvField w ≠ 0) : decode w = .illegal .reservedBits :=
  if_pos h

theorem decodeOp_of_six_le {op : Nat} (h : 6 ≤ op) (imm : Word) : decodeOp op imm = .illegal .reservedOpcode := by
  obtain ⟨k, rfl⟩ := Nat.exists_eq_add_of_le' h
  rfl

theorem Decoded.ite_eq_legal_iff {c : Prop} [Decidable c] {i j : Instr} {why : Reject} :
    (if c then Decoded.legal j else .illegal why) = .legal i ↔ c ∧ j = i := by
  by_cases hc : c <;> simp [hc]

theorem Decoded.isIllegal_ite_iff {c : Prop} [Decidable c] {i : Instr} {why : Reject} :
    (if c then Decoded.legal i else .illegal why).isIllegal = true ↔ ¬ c := by
  by_cases hc : c <;> simp [hc]

/-- A command read from `OP` and `IMM16` is the one that they encode. -/
theorem encode_of_decodeOp {op : Nat} {imm : Word} {i : Instr} (h : decodeOp op imm = .legal i) :
    encode i = packWord imm (BitVec.ofNat 4 op) := by
  unfold decodeOp at h
  split at h
  · obtain ⟨rfl, rfl⟩ := Decoded.ite_eq_legal_iff.mp h; rfl
  · obtain ⟨rfl, rfl⟩ := Decoded.ite_eq_legal_iff.mp h; rfl
  · obtain rfl := Decoded.legal.inj h; rfl
  · obtain ⟨himm, rfl⟩ := Decoded.ite_eq_legal_iff.mp h
    rw [encode, setWidth_bitOperand himm]
  · obtain ⟨himm, rfl⟩ := Decoded.ite_eq_legal_iff.mp h
    rw [encode, setWidth_byteOperand himm]
  · obtain ⟨rfl, rfl⟩ := Decoded.ite_eq_legal_iff.mp h; rfl
  · cases h

theorem decode_encode (i : Instr) : decode (encode i) = .legal i := by
  cases i with
  | nop | init | flush => rfl
  | setpoly p => exact decode_packWord p 0x2#4
  | bit b => cases b <;> rfl
  | byte d =>
    rw [encode, decode_packWord]
    simp [decodeOp]

/-- A word that decodes to a command has `RSV` 0 and is what its other two fields encode. -/
theorem eq_encode_of_decode {w : CmdWord} {i : Instr} (h : decode w = .legal i) : w = encode i := by
  by_cases hrsv : rsvField w = 0
  · rw [decode_of_rsv_eq_zero hrsv] at h
    rw [encode_of_decodeOp h, BitVec.ofNat_toNat, BitVec.setWidth_eq]
    exact word_eq_packWord w hrsv
  · rw [decode_of_rsv_ne_zero hrsv] at h
    cases h

theorem Decoded.isIllegal_eq_false_iff {d : Decoded} : d.isIllegal = false ↔ ∃ i, d = .legal i := by
  cases d <;> simp

/-! ### The rows of spec/opcode_table.json -/

/-- A field that lies wholly under a mask is that of the masked value. -/
theorem extractLsb'_of_and_eq {n start len : Nat} {v mask x : BitVec n} (h : v &&& mask = x)
    (hmask : mask.extractLsb' start len = BitVec.allOnes len) : v.extractLsb' start len = x.extractLsb' start len := by
  rw [← h, BitVec.extractLsb'_and, hmask, BitVec.and_allOnes]

/-- A word that fits a row decodes to a command of that row: the mask covers `RSV`, `OP`, and the bits of `IMM16` that
R41 requires to be 0. -/
theorem decode_of_fits {w : CmdWord} {r : Row} (hr : r ∈ opcodeTable) (h : r.fits w = true) :
    ∃ i, decode w = .legal i ∧ r.mnemonic = i.mnemonic := by
  have masks : ∀ r ∈ opcodeTable, rsvField r.mask = BitVec.allOnes 12 ∧ opField r.mask = BitVec.allOnes 4 ∧
      rsvField r.pattern = 0 := by decide
  obtain ⟨rsvMask, opMask, rsvPattern⟩ := masks r hr
  rw [Row.fits, beq_iff_eq] at h
  have hrsv : rsvField w = 0 := (extractLsb'_of_and_eq h rsvMask).trans rsvPattern
  have hop : opField w = opField r.pattern := extractLsb'_of_and_eq h opMask
  have himm : immField w &&& immField r.mask = immField r.pattern := by
    rw [← h]
    exact BitVec.extractLsb'_and.symm
  rw [decode_of_rsv_eq_zero hrsv, hop]
  simp only [opcodeTable, List.mem_cons, List.not_mem_nil, or_false] at hr
  obtain rfl | rfl | rfl | rfl | rfl | rfl := hr
  · exact ⟨.nop, if_pos (extractLsb'_of_and_eq h rfl), rfl⟩
  · exact ⟨.init, if_pos (extractLsb'_of_and_eq h rfl), rfl⟩
  · exact ⟨.setpoly _, rfl, rfl⟩
  · exact ⟨.bit _, if_pos (extractLsb'_of_and_eq himm rfl), rfl⟩
  · exact ⟨.byte _, if_pos (extractLsb'_of_and_eq himm rfl), rfl⟩
  · exact ⟨.flush, if_pos (extractLsb'_of_and_eq h rfl), rfl⟩

theorem row_eq_of_mnemonic : ∀ r1 ∈ opcodeTable, ∀ r2 ∈ opcodeTable, r1.mnemonic = r2.mnemonic → r1 = r2 := by
  decide

/-- Every command's word fits the row of its mnemonic. -/
theorem exists_row_of_encode (i : Instr) : Laws.TableRow.Statement i := by
  cases i with
  | nop => exact Laws.TableRow.nop
  | init => exact Laws.TableRow.init
  | setpoly p => exact Laws.TableRow.setpoly p
  | bit b => exact Laws.TableRow.bit b
  | byte d => exact Laws.TableRow.byte d
  | flush => exact Laws.TableRow.flush

/-- A word that decodes to `i` fits the row of `i`'s mnemonic and no other. -/
theorem fits_iff_mnemonic {w : CmdWord} {i : Instr} (hd : decode w = .legal i) {r : Row} (hr : r ∈ opcodeTable) :
    r.fits w = true ↔ r.mnemonic = i.mnemonic := by
  constructor
  · intro h
    obtain ⟨j, hj, hm⟩ := decode_of_fits hr h
    obtain rfl := Decoded.legal.inj (hd.symm.trans hj)
    exact hm
  · intro hm
    obtain ⟨r', hr', hm', h⟩ := exists_row_of_encode i
    rwa [row_eq_of_mnemonic r hr r' hr' (hm.trans hm'.symm), eq_encode_of_decode hd]

end Sys2Proof

namespace Sys2Proof.Machine

/-! ### What the assembler answers -/

theorem AsmLine.assemble_of_wellFormed {l : AsmLine} (h : l.wellFormed = true) :
    AsmLine.assemble l = some (AsmLine.expand l) := if_pos h

theorem AsmLine.assemble_of_not_wellFormed {l : AsmLine} (h : l.wellFormed = false) : AsmLine.assemble l = none := by
  simp [AsmLine.assemble, h]

theorem assemble_bits {v k : Nat} (hk : 1 ≤ k) (hk16 : k ≤ 16) (hv : v < 2 ^ k) :
    AsmLine.assemble (.bits v k) = some ((bitsMsbFirst v k).map fun b => encode (.bit b)) :=
  AsmLine.assemble_of_wellFormed (by simp [AsmLine.wellFormed, hk, hk16, hv])

theorem assemble_zeros {k : Nat} (hk : 1 ≤ k) :
    AsmLine.assemble (.zeros k) = some (List.replicate k (encode (.bit false))) :=
  AsmLine.assemble_of_wellFormed (decide_eq_true hk)

theorem packWord_eq_ofNat (imm : Word) (op : BitVec 4) :
    packWord imm op = BitVec.ofNat 32 (imm.toNat * 65536 + op.toNat) := by
  rw [← packWord_toNat, BitVec.ofNat_toNat, BitVec.setWidth_eq]

theorem encode_setpoly_ofNat {p : Nat} (h : p ≤ 0xFFFF) :
    encode (.setpoly (BitVec.ofNat 16 p)) = BitVec.ofNat 32 (p * 65536 + 2) := by
  rw [encode, packWord_eq_ofNat, BitVec.toNat_ofNat, Nat.mod_eq_of_lt (by omega)]
  rfl

theorem encode_byte_ofNat {d : Nat} (h : d ≤ 0xFF) :
    encode (.byte (BitVec.ofNat 8 d)) = BitVec.ofNat 32 (d * 65536 + 4) := by
  have operand : (BitVec.setWidth 16 (BitVec.ofNat 8 d)).toNat = d := by bv_omega
  rw [encode, packWord_eq_ofNat, operand]
  rfl

theorem encode_bit_beq_one {b : Nat} (h : b ≤ 1) : encode (.bit (b == 1)) = BitVec.ofNat 32 (b * 65536 + 3) := by
  obtain rfl | rfl := Nat.le_one_iff_eq_zero_or_eq_one.mp h
  · rfl
  · rfl

theorem bitsMsbFirst_getElem? (v : Nat) {k i : Nat} (hi : i < k) :
    (bitsMsbFirst v k)[i]? = some (v.testBit (k - 1 - i)) := by
  simp [bitsMsbFirst, hi]

@[simp] theorem bitsMsbFirst_length (v k : Nat) : (bitsMsbFirst v k).length = k := by simp [bitsMsbFirst]

/-- The bits of a byte are those of its number (R24, R47). -/
theorem bitsMsbFirst_eight (d : Nat) : bitsMsbFirst d 8 = byteBits (BitVec.ofNat 8 d) := by
  refine List.map_congr_left fun i hi => ?_
  have hlt : i < 8 := by simpa using hi
  simp [BitVec.getLsbD_ofNat, hlt, -BitVec.getLsbD_eq_getElem]

/-! ### Executing what the assembler answers -/

@[simp] theorem execute_encode (i : Instr) (s : State) : execute (encode i) s = exec i s :=
  execute_legal (decode_encode i) s

/-- Commands that absorb one stream of bits each absorb, one after the other, the stream that these make. -/
theorem executeAll_absorbs {α : Type} {f : α → Instr} {bits : α → List Bit}
    (hf : ∀ a s, exec (f a) s = .next (s.absorb (bits a))) (as : List α) (ws : List CmdWord) (s : State) :
    executeAll (as.map (fun a => encode (f a)) ++ ws) s = executeAll ws (s.absorb (as.flatMap bits)) := by
  induction as generalizing s with
  | nil => rfl
  | cons a as ih =>
    rw [List.map_cons, List.cons_append, executeAll_cons ((execute_encode _ s).trans (hf a s)), ih,
      State.absorb_absorb, List.flatMap_cons]

theorem executeAll_bits (bs : List Bit) (s : State) :
    executeAll (bs.map fun b => encode (.bit b)) s = .next (s.absorb bs) := by
  have h := executeAll_absorbs exec_bit bs [] s
  rwa [List.append_nil, List.flatMap_singleton', executeAll_nil] at h

theorem executeAll_singleton_encode (i : Instr) (s : State) : executeAll [encode i] s = exec i s := by
  rw [executeAll, execute_encode]
  cases exec i s <;> rfl

/-- INIT, the BYTEs of a buffer and FLUSH leave its `crc16` (R46, R57). -/
theorem executeAll_messageCommands (buf : List Byte) (s : State) :
    executeAll ((messageCommands buf).map encode) s = .next (s.writeCrc (crc16 buf s.poly)) := by
  have words : (messageCommands buf).map encode =
      encode .init :: (buf.map (fun d => encode (.byte d)) ++ [encode .flush]) := by simp [messageCommands]
  rw [words, executeAll_cons ((execute_encode .init s).trans (exec_init s)), executeAll_absorbs exec_byte,
    executeAll_singleton_encode, exec_flush, State.absorb_absorb, crc16_eq_absorbBits]
  rfl

end Sys2Proof.Machine

namespace Sys2Proof.Proofs

open Sys2Proof.Machine

/-- Settles O3: `decode` reads back every encoding, and a word with a meaning is the encoding of that meaning. -/
theorem decodeInvertsEncode : Obligations.DecodeInvertsEncode :=
  fun _ i => ⟨eq_encode_of_decode, fun h => h ▸ decode_encode i⟩

/-- Settles O4, by the row of each command's mnemonic and the command of each row. -/
theorem legalWordsAreTheTableRows : Obligations.LegalWordsAreTheTableRows := by
  refine ⟨fun w => ⟨fun h => ?_, fun ⟨r, hr, h⟩ => ?_⟩, fun w r1 hr1 r2 hr2 h1 h2 => ?_,
    fun w i hd r hr => fits_iff_mnemonic hd hr⟩
  · obtain ⟨i, hd⟩ := Decoded.isIllegal_eq_false_iff.mp h
    obtain ⟨r, hr, -, h⟩ := exists_row_of_encode i
    exact ⟨r, hr, eq_encode_of_decode hd ▸ h⟩
  · obtain ⟨i, hd, -⟩ := decode_of_fits hr h
    exact Decoded.isIllegal_eq_false_iff.mpr ⟨i, hd⟩
  · obtain ⟨i, hd, hm⟩ := decode_of_fits hr1 h1
    exact row_eq_of_mnemonic r1 hr1 r2 hr2 (hm.trans ((fits_iff_mnemonic hd hr2).mp h2).symm)

/-- Settles O5: the conditions on the numbers are those that `decode` and `decodeOp` put on the fields. -/
theorem decodeFollowsTheFields : Obligations.DecodeFollowsTheFields := by
  intro w op rsv imm hop hrsv himm
  rw [← opField_toNat] at hop
  rw [← rsvField_toNat] at hrsv
  rw [← immField_toNat] at himm
  subst hrsv himm
  have rsv_zero : (rsvField w).toNat = 0 ↔ rsvField w = 0 := BitVec.toNat_inj (y := 0)
  have imm_zero : (immField w).toNat = 0 ↔ immField w = 0 := BitVec.toNat_inj (y := 0)
  refine ⟨fun h => ?_, fun h => ?_, fun h => ?_⟩
  · rw [decode_of_rsv_ne_zero (rsv_zero.not.mp h), Decoded.isIllegal_illegal]
  · by_cases h0 : rsvField w = 0
    · rw [decode_of_rsv_eq_zero h0, ← hop, decodeOp_of_six_le h, Decoded.isIllegal_illegal]
    · rw [decode_of_rsv_ne_zero h0, Decoded.isIllegal_illegal]
  · rw [decode_of_rsv_eq_zero (rsv_zero.mp h), ← hop, ← byteOperand_eq_ofNat, BitVec.ofNat_toNat,
      BitVec.setWidth_eq]
    refine ⟨?nop, ?nopBits, ?init, ?initBits, ?setpoly, ?bit, ?bitBits, ?byte, ?byteBits, ?flush, ?flushBits⟩ <;>
      rintro rfl
    case nop | init | flush => exact fun hi => if_pos (imm_zero.mp hi)
    case nopBits | initBits | flushBits => exact fun hi => Decoded.isIllegal_ite_iff.mpr (imm_zero.not.mp hi)
    case setpoly => rfl
    case bit => exact fun hi => bitOperand_eq_beq hi ▸ if_pos ((bitExcess_eq_zero_iff _).mpr hi)
    case bitBits =>
      exact fun hi => Decoded.isIllegal_ite_iff.mpr ((bitExcess_eq_zero_iff _).not.mpr (Nat.not_lt.mpr hi))
    case byte => exact fun hi => if_pos ((byteExcess_eq_zero_iff _).mpr hi)
    case byteBits =>
      exact fun hi => Decoded.isIllegal_ite_iff.mpr ((byteExcess_eq_zero_iff _).not.mpr (Nat.not_lt.mpr hi))

/-- Settles O52: what a line answers turns on its operand range, and its words are those of `packWord`. -/
theorem assemblerEncodesLines : Obligations.AssemblerEncodesLines := by
  refine ⟨rfl, rfl, rfl, fun p h => ?setpoly, fun b h => ?bit, fun d h => ?byte, fun w h => ?word, fun p h => ?_,
    fun b h => ?_, fun d h => ?_, fun w h => ?_, fun ds h => ?_, fun v k h => ?bitsOutOfRange, rfl⟩
  case setpoly =>
    rw [AsmLine.assemble_of_wellFormed (l := .setpoly p) (decide_eq_true h), AsmLine.expand, encode_setpoly_ofNat h]
  case bit => rw [AsmLine.assemble_of_wellFormed (l := .bit b) (decide_eq_true h), AsmLine.expand, encode_bit_beq_one h]
  case byte =>
    rw [AsmLine.assemble_of_wellFormed (l := .byte d) (decide_eq_true h), AsmLine.expand, encode_byte_ofNat h]
  case word => rw [AsmLine.assemble_of_wellFormed (l := .word w) (decide_eq_true h), AsmLine.expand]
  all_goals refine AsmLine.assemble_of_not_wellFormed ?_
  case bitsOutOfRange => simp [AsmLine.wellFormed]; omega
  all_goals simpa [AsmLine.wellFormed] using h

/-- Settles O53: `executeAll_messageCommands`. -/
theorem crc16PseudoInstruction : Obligations.Crc16PseudoInstruction := by
  refine fun ds h => ⟨?_, executeAll_messageCommands _⟩
  rw [AsmLine.assemble_of_wellFormed (by simpa [AsmLine.wellFormed] using h)]
  simp [AsmLine.expand, messageCommands]

/-- Settles O54: both expand to BITs, whose bits are `flushBits` for `zeros 16` and those of the byte for
`bits d, 8`. -/
theorem bitsAndZerosPseudoInstructions : Obligations.BitsAndZerosPseudoInstructions := by
  refine ⟨fun v k hk hk16 hv => ⟨_, assemble_bits hk hk16 hv, by simp, fun i hi => ?_⟩,
    fun k hk => assemble_zeros hk, fun s => ⟨_, assemble_zeros (by decide), ?_⟩,
    fun d s hd => ⟨_, assemble_bits (by decide) (by decide) (by omega), ?_⟩⟩
  · rw [List.getElem?_map, bitsMsbFirst_getElem? v hi, Option.map_some, Nat.testBit_eq_decide_div_mod_eq]
    rfl
  · exact (executeAll_bits flushBits s).trans (executeAll_singleton_encode .flush s).symm
  · rw [executeAll_bits, bitsMsbFirst_eight, executeAll_singleton_encode, exec_byte]

end Sys2Proof.Proofs

/-! ## The round: its bits, its other forms, and the unmasked accumulator -/

namespace Sys2Proof.Machine

open Sys2Proof.Claims

/-! ### The stages of the register -/

/-- Bit 0 of the round takes the message bit and the feedback (R49, R51). -/
theorem crcRound_getLsbD_zero (r : Word) (b : Bit) (p : Word) :
    (crcRound r b p).getLsbD 0 = (b ^^ (r.getLsbD 15 && p.getLsbD 0)) := by
  rw [crcRound_eq_xor]
  cases b <;> cases r.getLsbD 15 <;> simp

/-- Every other bit takes the bit below it and the feedback (R51). -/
theorem crcRound_getLsbD_succ (r : Word) (b : Bit) (p : Word) {i : Nat} (hi : i < 15) :
    (crcRound r b p).getLsbD (i + 1) = (r.getLsbD i ^^ (r.getLsbD 15 && p.getLsbD (i + 1))) := by
  have hi16 : i + 1 < 16 := by omega
  rw [crcRound_eq_xor]
  cases b <;> cases r.getLsbD 15 <;> simp [hi16, -BitVec.getLsbD_eq_getElem]

theorem roundXorFirst_getLsbD_zero (r : Word) (b : Bit) (p : Word) :
    (roundXorFirst r b p).getLsbD 0 = (b || (r.getLsbD 15 && p.getLsbD 0)) := by
  cases b <;> cases hr : r.getLsbD 15 <;> simp [roundXorFirst, hr, -BitVec.getLsbD_eq_getElem]

/-- The two orders of R49 agree above bit 0: the message bit is ORed into bit 0 alone. -/
theorem roundXorFirst_getLsbD_succ (r : Word) (b : Bit) (p : Word) (i : Nat) :
    (roundXorFirst r b p).getLsbD (i + 1) = (crcRound r b p).getLsbD (i + 1) := by
  cases b <;> cases hr : r.getLsbD 15 <;> simp [roundXorFirst, crcRound, hr, -BitVec.getLsbD_eq_getElem]

/-- So the two orders agree exactly when they agree in bit 0. -/
theorem crcRound_eq_roundXorFirst_iff (r : Word) (b : Bit) (p : Word) :
    crcRound r b p = roundXorFirst r b p ↔ (crcRound r b p).getLsbD 0 = (roundXorFirst r b p).getLsbD 0 := by
  refine ⟨fun h => by rw [h], fun h => BitVec.eq_of_getLsbD_eq fun i _ => ?_⟩
  cases i with
  | zero => exact h
  | succ i => exact (roundXorFirst_getLsbD_succ r b p i).symm

/-! ### The shift -/

theorem shiftLeft_one_eq_ofNat (r : Word) : r <<< 1 = BitVec.ofNat 16 (r.toNat * 2) := by
  apply BitVec.eq_of_toNat_eq
  simp [BitVec.toNat_shiftLeft, Nat.shiftLeft_eq]

theorem shiftLeft_one_xor_eq_append (r : Word) (b : Bit) :
    (r <<< 1) ^^^ (if b then 1#16 else 0#16) = r.extractLsb' 0 15 ++ BitVec.ofBool b := by
  apply BitVec.eq_of_getLsbD_eq
  intro i hi
  rw [BitVec.getLsbD_append]
  cases i with
  | zero => cases b <;> simp
  | succ i =>
    have hi15 : i < 15 := by omega
    cases b <;> simp [hi, hi15, -BitVec.getLsbD_eq_getElem]

/-- R48's equivalent form of the round. -/
theorem crcRound_eq_append_xor (r : Word) (b : Bit) (p : Word) :
    crcRound r b p = (r.extractLsb' 0 15 ++ BitVec.ofBool b) ^^^ (if r.getLsbD 15 then p else 0#16) := by
  rw [crcRound_eq_xor, shiftLeft_one_xor_eq_append]

/-! ### The unmasked accumulator -/

/-- A round on an unmasked accumulator is, in its low 16 bits, the round (R50): no step moves a bit downwards. -/
theorem wideRound_setWidth {n : Nat} (hn : 16 ≤ n) (acc : BitVec n) (b : Bit) (p : Word) :
    (wideRound acc b p).setWidth 16 = crcRound (acc.setWidth 16) b p := by
  have carry : (acc.setWidth 16).getLsbD 15 = acc.getLsbD 15 := by simp
  cases b <;> cases hc : acc.getLsbD 15 <;>
    simp [wideRound, crcRound, hc, carry, hn, BitVec.setWidth_xor, BitVec.setWidth_or, -BitVec.getLsbD_eq_getElem]

theorem foldl_wideRound_setWidth {n : Nat} (hn : 16 ≤ n) (acc : BitVec n) (bs : List Bit) (p : Word) :
    (bs.foldl (fun a b => wideRound a b p) acc).setWidth 16 = absorbBits (acc.setWidth 16) bs p :=
  (List.foldl_hom (BitVec.setWidth 16) fun a b => (wideRound_setWidth hn a b p).symm).symm

end Sys2Proof.Machine

namespace Sys2Proof.Proofs

open Sys2Proof.Machine Sys2Proof.Claims

/-- Settles O8: doubling the number is the shift, and the equivalent form is `crcRound_eq_append_xor`. -/
theorem roundIsShiftInputAndFeedback : Obligations.RoundIsShiftInputAndFeedback := by
  refine fun r b p => ⟨?_, crcRound_eq_append_xor r b p⟩
  rw [← shiftLeft_one_eq_ofNat]
  rfl

/-- Settles O9, by bit 0 of the two orders, above which they agree. -/
theorem roundOrsTheInputBeforeFeedback : Obligations.RoundOrsTheInputBeforeFeedback := by
  refine ⟨fun r b p => ⟨crcRound_getLsbD_zero r b p, roundXorFirst_getLsbD_zero r b p, ?_⟩, by decide, by decide⟩
  rw [Ne, crcRound_eq_roundXorFirst_iff, crcRound_getLsbD_zero, roundXorFirst_getLsbD_zero]
  cases b <;> cases r.getLsbD 15 <;> cases p.getLsbD 0 <;> decide

/-- Settles O10: the low 16 bits by `foldl_wideRound_setWidth`, and the carry is one of them. -/
theorem maskedAndWideRoundsAgree : Obligations.MaskedAndWideRoundsAgree := by
  intro n hn acc bs p
  have low := foldl_wideRound_setWidth (by omega : 16 ≤ n) acc bs p
  refine ⟨low, ?_⟩
  rw [← low, BitVec.getLsbD_setWidth]
  rfl

/-- Settles O11: the stages of the register, and where 0x1021 has its taps. -/
theorem tapEquations : Obligations.TapEquations := by
  intro r b
  have stage : ∀ (p : Word) (i : Nat), 1 ≤ i → i ≤ 15 →
      (crcRound r b p).getLsbD i = (r.getLsbD (i - 1) ^^ (r.getLsbD 15 && p.getLsbD i)) := by
    intro p i hi hi15
    obtain ⟨i, rfl⟩ := Nat.exists_eq_add_of_le' hi
    exact crcRound_getLsbD_succ r b p (by omega)
  have untapped : ∀ i < 16, i ≠ 0 → i ≠ 5 → i ≠ 12 → (0x1021#16).getLsbD i = false := by decide
  refine ⟨fun p => ⟨crcRound_getLsbD_zero r b p, stage p⟩, ?_, ?_, ?_, fun i h1 h15 h5 h12 => ?_⟩
  · rw [crcRound_getLsbD_zero, show (0x1021#16).getLsbD 0 = true from rfl, Bool.and_true]
  · rw [stage _ 5 (by decide) (by decide), show (0x1021#16).getLsbD 5 = true from rfl, Bool.and_true]
  · rw [stage _ 12 (by decide) (by decide), show (0x1021#16).getLsbD 12 = true from rfl, Bool.and_true]
  · rw [stage _ i h1 h15, untapped i (by omega) (by omega) h5 h12, Bool.and_false, Bool.xor_false]

end Sys2Proof.Proofs

/-! ## The commands of the datapath -/

namespace Sys2Proof

open Machine

/-! ### Illegal neighbours of the commands -/

variable {w : CmdWord}

/-- A word is illegal when its operand is, if its `RSV` does not make it so already (R41). -/
theorem isIllegal_of_operand {op : Nat} (hop : w.toNat % 16 = op)
    (h : rsvField w = 0 → (decodeOp op (immField w)).isIllegal = true) : (decode w).isIllegal = true := by
  by_cases hrsv : rsvField w = 0
  · rw [decode_of_rsv_eq_zero hrsv, opField_toNat, hop]
    exact h hrsv
  · rw [decode_of_rsv_ne_zero hrsv, Decoded.isIllegal_illegal]

/-- Of a command without operand, every word but its `OP` alone is illegal. -/
theorem isIllegal_of_ne_bare {op : Nat} (bare : ∀ imm : Word, imm ≠ 0 → (decodeOp op imm).isIllegal = true)
    (hop : w.toNat % 16 = op) (hw : w ≠ BitVec.ofNat 32 op) : (decode w).isIllegal = true := by
  refine isIllegal_of_operand hop fun hrsv => bare _ fun himm => hw ?_
  have rsv := rsvField_toNat w
  have imm := immField_toNat w
  rw [hrsv] at rsv
  rw [himm] at imm
  bv_omega

/-- A field cut from a field is a field of the whole value. -/
theorem extractLsb'_extractLsb' {n : Nat} (v : BitVec n) {start start' len len' : Nat} (h : start' + len' ≤ len) :
    (v.extractLsb' start len).extractLsb' start' len' = v.extractLsb' (start + start') len' := by
  ext i hi
  simp [show start' + i < len by omega, Nat.add_assoc]

/-- A word with a bit of `RSV` or a bit its command forbids in `IMM16` set is illegal. -/
theorem isIllegal_of_forbidden {op start len : Nat} (hlen : start + len ≤ 16)
    (operand : ∀ imm : Word, imm.extractLsb' start len ≠ 0 → (decodeOp op imm).isIllegal = true)
    (hop : w.toNat % 16 = op) (h : w.extractLsb' (16 + start) len ≠ 0 ∨ w.extractLsb' 4 12 ≠ 0) :
    (decode w).isIllegal = true := by
  refine isIllegal_of_operand hop fun hrsv => operand _ ?_
  rw [immField, extractLsb'_extractLsb' w hlen]
  exact h.resolve_right (not_not.mpr hrsv)

/-- A word with `RSV` 0, written with shift and OR as the rules of the commands write it. -/
theorem shiftLeft_or_eq_packWord {k : Nat} (hk : k ≤ 16) (d : BitVec k) (op : BitVec 4) :
    (d.setWidth 32 <<< 16) ||| op.setWidth 32 = packWord (d.setWidth 16) op := by
  have hd : d.toNat < 2 ^ 16 := Nat.lt_of_lt_of_le d.isLt (Nat.pow_le_pow_right (by decide) hk)
  have hop := op.isLt
  apply BitVec.eq_of_toNat_eq
  rw [packWord_toNat, BitVec.toNat_or, BitVec.toNat_shiftLeft, BitVec.toNat_setWidth_of_le (by omega),
    BitVec.toNat_setWidth_of_le (by omega), BitVec.toNat_setWidth_of_le hk,
    Nat.mod_eq_of_lt (by rw [Nat.shiftLeft_eq]; omega), ← Nat.shiftLeft_add_eq_or_of_lt (by omega), Nat.shiftLeft_eq]

end Sys2Proof

namespace Sys2Proof.Machine

/-! ### Streams of bits absorbed in special cases -/

theorem absorbBits_replicate (r p : Word) (b : Bit) (n : Nat) :
    absorbBits r (List.replicate n b) p = (fun t => crcRound t b p)^[n] r := by
  induction n generalizing r with
  | zero => rfl
  | succ n ih => exact ih (crcRound r b p)

/-- Under POLY 0 nothing feeds back: the round is the plain shift. -/
theorem crcRound_poly_zero (r : Word) (b : Bit) : crcRound r b 0#16 = r.extractLsb' 0 15 ++ BitVec.ofBool b := by
  rw [crcRound_eq_append_xor, ite_self, BitVec.xor_zero]

theorem absorbBits_zeros_poly_zero (r : Word) (n : Nat) :
    absorbBits r (List.replicate n false) 0#16 = r <<< n := by
  induction n generalizing r with
  | zero => simp
  | succ n ih =>
    have round : crcRound r false 0#16 = r <<< 1 := by simp [crcRound_eq_xor]
    rw [List.replicate_succ, absorbBits_cons, round, ih, ← BitVec.shiftLeft_add, Nat.add_comm]

/-- Under POLY 0 a flush shifts every bit out. -/
theorem flushRounds_poly_zero (r : Word) : flushRounds r 0#16 = 0#16 :=
  (absorbBits_zeros_poly_zero r 16).trans (BitVec.shiftLeft_eq_zero (le_refl 16))

theorem flushRounds_init_1021 : flushRounds 0xFFFF#16 0x1021#16 = 0x1D0F#16 := by decide +kernel

/-- A byte fed to a register that holds 0 just shifts in (R54). -/
theorem absorbBits_zero_byteBits (d : Byte) (p : Word) : absorbBits 0#16 (byteBits d) p = d.setWidth 16 := by
  have shifted : d.setWidth 16 >>> 8 = 0#16 := by bv_omega
  have bits : (List.range 8).reverse.map (d.setWidth 16).getLsbD = byteBits d := rfl
  have loaded := absorbBits_ushiftRight (d.setWidth 16) p (by decide : 8 ≤ 16)
  rwa [shifted, bits] at loaded

/-! ### One command that absorbs a stream, and sequences of commands -/

theorem exec_of_absorbBits_eq {i : Instr} {s : State} {bs : List Bit} {c p v : Word}
    (hi : exec i s = .next (s.absorb bs)) (hcrc : s.crc = c) (hpoly : s.poly = p) (h : absorbBits c bs p = v) :
    exec i s = .next { s with crc := v } := by
  subst hcrc hpoly h
  exact hi

/-- Absorbing what leaves the register as it is leaves the state as it is. -/
theorem exec_of_absorbBits_fixed {i : Instr} {s : State} {bs : List Bit} {c : Word}
    (hi : exec i s = .next (s.absorb bs)) (hcrc : s.crc = c) (h : absorbBits c bs s.poly = c) :
    exec i s = .next s := by
  subst hcrc
  exact exec_of_absorbBits_eq hi rfl rfl h

theorem executeAll_encode_cons {i : Instr} {s t : State} (h : exec i s = .next t) (ws : List CmdWord) :
    executeAll (encode i :: ws) s = executeAll ws t :=
  executeAll_cons ((execute_encode i s).trans h)

/-- INIT discards what was absorbed before it (R52). -/
theorem executeAll_bits_init (bs : List Bit) (s : State) :
    executeAll (.map encode (bs.map .bit ++ [.init])) s = exec .init s := by
  rw [List.map_append, List.map_map]
  exact (executeAll_absorbs exec_bit bs [encode .init] s).trans (executeAll_singleton_encode .init _)

end Sys2Proof.Machine

namespace Sys2Proof.Proofs

open Sys2Proof.Machine Sys2Proof.Claims

/-- Settles O13: INIT writes a constant to `CRC` and nothing else. -/
theorem initCompletesWithAllOnes : Obligations.InitCompletesWithAllOnes := by
  refine ⟨rfl, exec_init, fun w s hop hw => ?illegal, fun s bs => ?discards, fun s => ?twice, fun s p => ?commutes,
    fun s _ => ⟨_, exec_init s, rfl⟩⟩
  case illegal =>
    exact execute_of_isIllegal (isIllegal_of_ne_bare (fun _ => Decoded.isIllegal_ite_iff.mpr) hop hw) s
  case discards =>
    rw [List.map_cons, executeAll_encode_cons (exec_init s), executeAll_bits_init, executeAll_singleton_encode]
    rfl
  case twice => exact repeatedCommands.1 _ s (.inr (.inr (.inl (decode_encode .init))))
  case commutes =>
    rw [executeAll_encode_cons (exec_init s), executeAll_encode_cons (exec_setpoly p s)]
    simp only [executeAll_singleton_encode]
    rfl

/-- Settles O14: BIT absorbs the stream of its one bit. -/
theorem bitCompletesWithOneRound : Obligations.BitCompletesWithOneRound := by
  refine ⟨fun b => ?decodes, exec_bit, fun w s hop h => ?illegal, fun s hcrc => ?zero, fun b s hpoly => ?shift,
    fun b s t h => ?bitZero, fun s hcrc hpoly => ?sample⟩
  case decodes =>
    exact (congrArg decode (shiftLeft_or_eq_packWord (by decide) (.ofBool b) 0x3#4)).trans (decode_encode (.bit b))
  case illegal =>
    exact execute_of_isIllegal
      (isIllegal_of_forbidden (start := 1) (by decide) (fun _ => Decoded.isIllegal_ite_iff.mpr) hop h) s
  case zero => exact exec_of_absorbBits_fixed (exec_bit _ s) hcrc (absorbBits_zero_zeros s.poly 1)
  case shift => exact exec_of_absorbBits_eq (exec_bit _ s) rfl hpoly (crcRound_poly_zero s.crc b)
  case bitZero =>
    obtain rfl := Host.Outcome.next.inj ((exec_bit b s).symm.trans h)
    exact crcRound_getLsbD_zero s.crc b s.poly
  case sample => exact exec_of_absorbBits_eq (exec_bit _ s) hcrc hpoly (by decide)

/-- Settles O15: BYTE absorbs the stream of its eight bits. -/
theorem byteCompletesWithEightRounds : Obligations.ByteCompletesWithEightRounds := by
  refine ⟨fun d => ?decodes, exec_byte, fun w s hop h => ?illegal, fun d s hcrc => ?zero, fun s hcrc hpoly => ?sample⟩
  case decodes =>
    exact (congrArg decode (shiftLeft_or_eq_packWord (by decide) d 0x4#4)).trans (decode_encode (.byte d))
  case illegal =>
    exact execute_of_isIllegal
      (isIllegal_of_forbidden (start := 8) (by decide) (fun _ => Decoded.isIllegal_ite_iff.mpr) hop h) s
  case zero => exact exec_of_absorbBits_eq (exec_byte _ s) hcrc rfl (absorbBits_zero_byteBits d s.poly)
  case sample => exact exec_of_absorbBits_eq (exec_byte _ s) hcrc hpoly (by decide)

/-- Settles O16: FLUSH absorbs sixteen zero bits. -/
theorem flushCompletesWithSixteenZeroRounds : Obligations.FlushCompletesWithSixteenZeroRounds := by
  obtain ⟨-, -, -, notIdempotent⟩ := repeatedCommands
  refine ⟨rfl, exec_flush, fun w s hop hw => ?illegal, fun s hcrc => ?zero, fun s hpoly => ?polyZero, notIdempotent,
    fun s hcrc hpoly => ?sample⟩
  case illegal =>
    exact execute_of_isIllegal (isIllegal_of_ne_bare (fun _ => Decoded.isIllegal_ite_iff.mpr) hop hw) s
  case zero => exact exec_of_absorbBits_fixed (exec_flush s) hcrc (absorbBits_zero_zeros s.poly 16)
  case polyZero => exact exec_of_absorbBits_eq (exec_flush s) rfl hpoly (flushRounds_poly_zero s.crc)
  case sample => exact exec_of_absorbBits_eq (exec_flush s) hcrc hpoly flushRounds_init_1021

end Sys2Proof.Proofs

/-! ## Whole messages: the CORE's runs, linearity, and the direct form -/

namespace Sys2Proof.Machine

open Sys2Proof.Safety Sys2Proof.Claims

/-! ### The CORE's runs of a message -/

/-- Presented commands run in order: `runSteps_commands` for the words of a list of commands. -/
theorem runSteps_presentAll {s : State} (is : List Instr) (rest : List PortInput) (hb : s.inProgress = none)
    (hin : s.inputs = presentAll is ++ rest) :
    runSteps is.length s = executeAll (is.map encode) { s with inputs := rest } := by
  have words : presentAll is = (is.map encode).map .command := by simp [presentAll]
  rw [words] at hin
  simpa using runSteps_commands (is.map encode) rest hb hin

theorem messageCommands_length (buf : List Byte) : (messageCommands buf).length = buf.length + 2 := by
  simp [messageCommands]

/-- INIT, a stream of BITs and a flush of BITs leave the stream's rounds from 0xFFFF and the flush (R60). -/
theorem executeAll_init_bits (bs : List Bit) (s : State) :
    executeAll (encode .init :: (bs.map (fun b => encode (.bit b)) ++ List.replicate 16 (encode (.bit false)))) s =
      .next (s.writeCrc (absorbBits Config.initValue (bs ++ flushBits) s.poly)) := by
  have flush : List.replicate 16 (encode (.bit false)) = flushBits.map (fun b => encode (.bit b)) := rfl
  rw [executeAll_encode_cons (exec_init s), flush, ← List.map_append, executeAll_bits]
  rfl

/-! ### Linearity -/

theorem absorbBits_zero_xor {as bs : List Bit} (h : as.length = bs.length) (p : Word) :
    absorbBits 0#16 (List.zipWith (· ^^ ·) as bs) p = absorbBits 0#16 as p ^^^ absorbBits 0#16 bs p := by
  rw [← absorbBits_xor h, BitVec.xor_zero]

theorem byteBits_xor (d e : Byte) : byteBits (d ^^^ e) = List.zipWith (· ^^ ·) (byteBits d) (byteBits e) := by
  simp [byteBits_eq]

theorem messageBits_xorMessages (m1 m2 : List Byte) :
    messageBits (xorMessages m1 m2) = List.zipWith (· ^^ ·) (messageBits m1) (messageBits m2) := by
  induction m1 generalizing m2 with
  | nil => rfl
  | cons d m1 ih =>
    cases m2 with
    | nil => simp [xorMessages]
    | cons e m2 =>
      have step : xorMessages (d :: m1) (e :: m2) = (d ^^^ e) :: xorMessages m1 m2 := rfl
      rw [step, messageBits_cons, messageBits_cons, messageBits_cons, byteBits_xor, ih, List.zipWith_append]
      rfl

theorem messageBits_replicate_zero (n : Nat) : messageBits (List.replicate n 0#8) = List.replicate (8 * n) false := by
  induction n with
  | zero => rfl
  | succ n ih =>
    rw [List.replicate_succ, messageBits_cons, ih, Nat.mul_succ, Nat.add_comm, List.replicate_add]
    rfl

/-- `crc16` is that of as many zero bytes and what the message gives from 0, which is linear in the message. -/
theorem crc16_eq_zeros_xor (m : List Byte) (p : Word) :
    crc16 m p = crc16 (List.replicate m.length 0#8) p ^^^ absorbBits 0#16 (messageBits m ++ flushBits) p := by
  rw [crc16_eq_absorbBits, absorbBits_eq_zeros_xor, List.length_append, List.replicate_add, crc16_eq_absorbBits,
    messageBits_replicate_zero, messageBits_length]
  rfl

theorem crc16_xorMessages {m1 m2 : List Byte} (h : m1.length = m2.length) (p : Word) :
    crc16 (xorMessages m1 m2) p = crc16 m1 p ^^^ crc16 m2 p ^^^ crc16 (List.replicate m1.length 0#8) p := by
  have bits : messageBits (xorMessages m1 m2) ++ flushBits =
      List.zipWith (· ^^ ·) (messageBits m1 ++ flushBits) (messageBits m2 ++ flushBits) := by
    rw [messageBits_xorMessages, List.zipWith_append (by simp [messageBits_length, h])]
    rfl
  have length : (xorMessages m1 m2).length = m1.length := by simp [xorMessages, h]
  have cancel (z a1 a2 : Word) : z ^^^ (a1 ^^^ a2) = (z ^^^ a1) ^^^ (z ^^^ a2) ^^^ z := calc
    z ^^^ (a1 ^^^ a2) = (z ^^^ z) ^^^ (z ^^^ (a1 ^^^ a2)) := by rw [BitVec.xor_self, BitVec.zero_xor]
    _ = (z ^^^ a1) ^^^ (z ^^^ a2) ^^^ z := by ac_rfl
  rw [crc16_eq_zeros_xor, length, bits, absorbBits_zero_xor (by simp [messageBits_length, h]), cancel,
    ← crc16_eq_zeros_xor, h, ← crc16_eq_zeros_xor]

/-! ### The direct form -/

theorem directShift_eq_crcRound (p r : Word) : directShift p r = crcRound r false p := by
  rw [crcRound_eq_xor]
  simp [directShift]

/-- One byte of the direct form: XORed into the high byte of the flushed register and shifted through, it gives the
flush of the register that absorbed it (R65). The byte and a zero byte are the word that has the byte high. -/
theorem flushRounds_absorb_byte (r p : Word) (d : Byte) :
    flushRounds (absorbBits r (byteBits d) p) p =
      (directShift p)^[8] (flushRounds r p ^^^ (d.setWidth 16 <<< 8)) := by
  have high : messageBits (serialiseResult .be (d.setWidth 16 <<< 8)) = byteBits d ++ List.replicate 8 false := by
    have hi : (d.setWidth 16 <<< 8).extractLsb' 8 8 = d := by
      ext i hi
      simp [show 8 + i < 16 by omega, hi]
    have lo : (d.setWidth 16 <<< 8).extractLsb' 0 8 = 0#8 := by
      ext i
      simp
      omega
    rw [serialiseResult, hi, lo, messageBits_cons]
    rfl
  have shifts : directShift p = fun t => crcRound t false p := funext (directShift_eq_crcRound p)
  rw [shifts, ← absorbBits_replicate, ← absorbBits_serialiseResult_be, high, ← absorbBits_append, List.append_assoc,
    absorbBits_append, flushRounds]
  rfl

/-- The direct form started from a flushed register follows the flush of the absorbing register. -/
theorem flushRounds_absorb_message (buf : List Byte) (r p : Word) :
    flushRounds (absorbBits r (messageBits buf) p) p = directForm buf p (flushRounds r p) := by
  induction buf generalizing r with
  | nil => rfl
  | cons d buf ih =>
    rw [messageBits_cons, absorbBits_append, ih, flushRounds_absorb_byte]
    rfl

theorem crc16_eq_directForm (buf : List Byte) (p : Word) :
    crc16 buf p = directForm buf p (flushRounds Config.initValue p) := by
  rw [crc16, foldl_absorb_bytes, flushRounds_absorb_message]

end Sys2Proof.Machine

namespace Sys2Proof.Proofs

open Sys2Proof.Machine Sys2Proof.Safety Sys2Proof.Claims

/-- Settles O34: the presented commands run in order, and `executeAll_messageCommands` says what they leave. -/
theorem coreComputesCrc16 : Obligations.CoreComputesCrc16 := by
  refine fun s p buf rest hb => ⟨fun hin => ?setpoly, fun hin => ?plain⟩
  case setpoly =>
    have run := runSteps_presentAll _ rest hb hin
    rw [List.length_cons, messageCommands_length, List.map_cons, executeAll_encode_cons (exec_setpoly p _),
      executeAll_messageCommands] at run
    exact run
  case plain =>
    have run := runSteps_presentAll _ rest hb hin
    rw [messageCommands_length, executeAll_messageCommands] at run
    exact run

/-- Settles O37: a BYTE, a FLUSH and a message absorb the streams that the BITs make. -/
theorem bitwiseEquivalents : Obligations.BitwiseEquivalents := by
  refine ⟨fun d s => ?byte, fun s => ?flush, fun buf s => ?message⟩
  case byte => exact (executeAll_singleton_encode _ s).trans (executeAll_bits (byteBits d) s).symm
  case flush => exact (executeAll_singleton_encode _ s).trans (executeAll_bits flushBits s).symm
  case message =>
    rw [executeAll_init_bits, crc16_eq_absorbBits]
    rfl

/-- Settles O38: the round is a sum over GF(2), and so is what a message gives from 0. -/
theorem roundAndCrcAreLinear : Obligations.RoundAndCrcAreLinear :=
  ⟨crcRound_xor, fun _ _ p h => crc16_xorMessages h p⟩

/-- Settles O41: `crc16_eq_directForm`, and the values by evaluation. -/
theorem directFormEquivalence : Obligations.DirectFormEquivalence := by
  refine ⟨crc16_eq_directForm, flushRounds_init_1021, fun buf => ?_, by decide +kernel, by decide +kernel⟩
  rw [crc16_eq_directForm, Config.initValue, flushRounds_init_1021]

/-- Settles O44: the bytes of the CRC, high byte first, are its serialisation in the order of the residue law. -/
theorem residueIsZero : Obligations.ResidueIsZero := by
  refine ⟨fun m p c hc => ?_, by decide +kernel⟩
  rw [hc]
  exact crc16_append_serialiseResult_be m p

/-- Settles O35: the flush as an iterated round. -/
theorem emptyMessage : Obligations.EmptyMessage :=
  ⟨fun p => absorbBits_replicate Config.initValue p false 16, flushRounds_init_1021⟩

/-- Settles O42: `crc16_eq_absorbBits`, and the values by evaluation. -/
theorem trailingZerosMatter : Obligations.TrailingZerosMatter :=
  ⟨flushRounds_init_1021, by decide +kernel, by decide +kernel, crc16_eq_absorbBits⟩

end Sys2Proof.Proofs

/-! ## The CRC as a polynomial remainder over GF(2) -/

namespace Sys2Proof.Machine

open Sys2Proof.Claims Polynomial

/-! ### Values and streams as polynomials -/

theorem ite_xor_eq_add (a b : Bit) (f : (ZMod 2)[X]) :
    (if (a ^^ b) then f else 0) = (if a then f else 0) + (if b then f else 0) := by
  cases a <;> cases b <;> simp [CharTwo.add_self_eq_zero]

theorem valuePoly_coeff (v : Word) (i : Nat) : (valuePoly v).coeff i = if v.getLsbD i then 1 else 0 := by
  have term (j : ℕ) : (if v.getLsbD j then (X ^ j : (ZMod 2)[X]) else 0).coeff i =
      if i = j then (if v.getLsbD i then 1 else 0) else 0 := by
    by_cases hij : i = j
    · subst hij
      cases v.getLsbD i <;> simp
    · cases v.getLsbD j <;> simp [hij, coeff_X_pow]
  simp only [valuePoly, finsetSum_coeff, term, Finset.sum_ite_eq, Finset.mem_range]
  by_cases hi : i < 16
  · rw [if_pos hi]
  · rw [if_neg hi, BitVec.getLsbD_of_ge v i (by omega), if_neg Bool.false_ne_true]

theorem valuePoly_zero : valuePoly 0#16 = 0 := by simp [valuePoly]

theorem valuePoly_xor (v w : Word) : valuePoly (v ^^^ w) = valuePoly v + valuePoly w := by
  simp only [valuePoly, BitVec.getLsbD_xor, ite_xor_eq_add, Finset.sum_add_distrib]

theorem valuePoly_ite (c : Prop) [Decidable c] (v : Word) :
    valuePoly (if c then v else 0#16) = if c then valuePoly v else 0 := by
  split <;> simp [valuePoly_zero]

theorem valuePoly_degree_lt (v : Word) : (valuePoly v).degree < (16 : ℕ) := by
  rw [degree_lt_iff_coeff_zero]
  intro i hi
  rw [valuePoly_coeff, BitVec.getLsbD_of_ge v i hi, if_neg Bool.false_ne_true]

theorem valuePoly_eq_zero {v : Word} (h : valuePoly v = 0) : v = 0#16 := by
  apply BitVec.eq_of_getLsbD_eq
  intro i _
  have hi := valuePoly_coeff v i
  rw [h, coeff_zero] at hi
  cases hv : v.getLsbD i with
  | false => simp
  | true => simp [hv] at hi

/-- The shift multiplies by x, and drops what the carry holds. -/
theorem valuePoly_shiftLeft_one (r : Word) :
    valuePoly (r <<< 1) = X * valuePoly r + (if r.getLsbD 15 then X ^ 16 else 0) := by
  have bottom : (r <<< 1).getLsbD 0 = false := by simp
  have stage : ∀ i ∈ Finset.range 15, (if (r <<< 1).getLsbD (i + 1) then (X ^ (i + 1) : (ZMod 2)[X]) else 0) =
      X * (if r.getLsbD i then X ^ i else 0) := by
    intro i hi
    have hi16 : i + 1 < 16 := Nat.succ_lt_succ (Finset.mem_range.mp hi)
    simp [hi16, pow_succ', -BitVec.getLsbD_eq_getElem]
  have top : X * (if r.getLsbD 15 then (X ^ 15 : (ZMod 2)[X]) else 0) + (if r.getLsbD 15 then X ^ 16 else 0) = 0 := by
    rw [mul_ite, mul_zero, ← pow_succ', CharTwo.add_self_eq_zero]
  have split : valuePoly r = (∑ i ∈ Finset.range 15, if r.getLsbD i then X ^ i else 0) +
      (if r.getLsbD 15 then X ^ 15 else 0) := Finset.sum_range_succ _ 15
  rw [valuePoly, Finset.sum_range_succ', bottom, Finset.sum_congr rfl stage, ← Finset.mul_sum, split,
    mul_add, add_assoc, top]
  simp

theorem valuePoly_one : valuePoly 1#16 = 1 := by
  rw [valuePoly, Finset.sum_range_succ']
  simp

theorem streamPoly_nil : streamPoly [] = 0 := rfl

theorem streamPoly_cons (b : Bit) (bs : List Bit) :
    streamPoly (b :: bs) = (if b then X ^ bs.length else 0) + streamPoly bs := by
  have exponent (j : ℕ) : bs.length + 1 - 1 - (j + 1) = bs.length - 1 - j := by omega
  rw [streamPoly, List.length_cons, Finset.sum_range_succ', add_comm]
  simp only [List.getD_cons_succ, exponent]
  rfl

theorem streamPoly_append (as bs : List Bit) :
    streamPoly (as ++ bs) = streamPoly as * X ^ bs.length + streamPoly bs := by
  induction as with
  | nil => simp [streamPoly_nil]
  | cons a as ih =>
    rw [List.cons_append, streamPoly_cons, streamPoly_cons, ih, List.length_append, pow_add]
    cases a
    · simp
    · simp
      ring

theorem streamPoly_zeros (n : Nat) : streamPoly (List.replicate n false) = 0 := by
  induction n with
  | zero => rfl
  | succ n ih => simp [List.replicate_succ, streamPoly_cons, ih]

/-! ### The remainder -/

theorem feedbackPoly_monic (p : Word) : (feedbackPoly p).Monic :=
  monic_X_pow_add (valuePoly_degree_lt p)

theorem feedbackPoly_degree (p : Word) : (feedbackPoly p).degree = (16 : ℕ) := by
  rw [feedbackPoly, degree_add_eq_left_of_degree_lt, degree_X_pow]
  rw [degree_X_pow]
  exact valuePoly_degree_lt p

/-- A register value that differs from a polynomial by a multiple of `P` is its remainder by `P`: it has a degree less
than 16. -/
theorem valuePoly_eq_modByMonic {v p : Word} {q f : (ZMod 2)[X]} (h : valuePoly v + feedbackPoly p * q = f) :
    valuePoly v = f.modByMonic (feedbackPoly p) :=
  (div_modByMonic_unique q _ (feedbackPoly_monic p)
    ⟨h, by rw [feedbackPoly_degree]; exact valuePoly_degree_lt v⟩).2.symm

/-- A round multiplies by x, adds the bit, and takes `P` once off where the carry is 1. -/
theorem valuePoly_crcRound (r : Word) (b : Bit) (p : Word) :
    valuePoly (crcRound r b p) + feedbackPoly p * (if r.getLsbD 15 then 1 else 0) =
      X * valuePoly r + (if b then 1 else 0) := by
  rw [crcRound_eq_xor, valuePoly_xor, valuePoly_xor, valuePoly_ite, valuePoly_ite, valuePoly_one,
    valuePoly_shiftLeft_one, feedbackPoly]
  cases r.getLsbD 15
  · simp
  · simp only [if_true, mul_one]
    linear_combination CharTwo.add_self_eq_zero (X ^ 16 : (ZMod 2)[X]) + CharTwo.add_self_eq_zero (valuePoly p)

/-- A stream of k bits multiplies by x^k, adds the stream, and takes a multiple of `P` off. -/
theorem valuePoly_absorbBits (r p : Word) (bs : List Bit) :
    ∃ q, valuePoly (absorbBits r bs p) + feedbackPoly p * q = valuePoly r * X ^ bs.length + streamPoly bs := by
  induction bs generalizing r with
  | nil => exact ⟨0, by simp [streamPoly_nil]⟩
  | cons b bs ih =>
    obtain ⟨q, hq⟩ := ih (crcRound r b p)
    have round := valuePoly_crcRound r b p
    refine ⟨q + (if r.getLsbD 15 then 1 else 0) * X ^ bs.length, ?_⟩
    have bit : (if b then X ^ bs.length else 0 : (ZMod 2)[X]) = (if b then 1 else 0) * X ^ bs.length := by simp
    rw [absorbBits_cons, streamPoly_cons, List.length_cons, bit]
    linear_combination hq + X ^ bs.length * round

/-- The closed form, with the quotient written out (R64). -/
theorem valuePoly_crc16 (buf : List Byte) (p : Word) :
    ∃ q, valuePoly (crc16 buf p) + feedbackPoly p * q =
      valuePoly 0xFFFF#16 * X ^ (8 * buf.length + 16) + streamPoly (messageBits buf) * X ^ 16 := by
  have h := valuePoly_absorbBits Config.initValue p (messageBits buf ++ flushBits)
  rwa [← crc16_eq_absorbBits, streamPoly_append, flushBits, streamPoly_zeros, add_zero, List.length_append,
    messageBits_length, List.length_replicate] at h

/-! ### Flipped bits -/

theorem streamPoly_xor {as bs : List Bit} (h : as.length = bs.length) :
    streamPoly (List.zipWith (· ^^ ·) as bs) = streamPoly as + streamPoly bs := by
  induction as generalizing bs with
  | nil => cases bs with
    | nil => simp [streamPoly_nil]
    | cons b bs => simp at h
  | cons a as ih => cases bs with
    | nil => simp at h
    | cons b bs =>
      have length : as.length = bs.length := Nat.succ.inj h
      rw [List.zipWith_cons_cons, streamPoly_cons, streamPoly_cons, streamPoly_cons, ih length, ite_xor_eq_add,
        List.length_zipWith, length, min_self]
      ring

/-- Flipping bit i of a byte adds x^i to its stream. -/
theorem streamPoly_byteBits_flip (d : Byte) {i : Nat} (hi : i < 8) :
    streamPoly (byteBits (d ^^^ (1#8 <<< i))) = streamPoly (byteBits d) + X ^ i := by
  have one_bit : streamPoly (byteBits (1#8 <<< i)) = X ^ i := by
    interval_cases i <;> simp [byteBits_eq, streamPoly_cons, streamPoly_nil]
  rw [byteBits_xor, streamPoly_xor (by simp), one_bit]

/-- Flipping one bit of a message adds a power of x to its stream (R67). -/
theorem streamPoly_messageBits_flip {m : List Byte} {j i : Nat} (hj : j < m.length) (hi : i < 8) :
    ∃ k, streamPoly (messageBits (flipMessageBit m j i)) = streamPoly (messageBits m) + X ^ k := by
  induction m generalizing j with
  | nil => simp at hj
  | cons d m ih =>
    cases j with
    | zero =>
      refine ⟨i + (messageBits m).length, ?_⟩
      rw [flipMessageBit, List.modify_zero_cons, messageBits_cons, messageBits_cons, streamPoly_append,
        streamPoly_append, streamPoly_byteBits_flip d hi]
      ring
    | succ j =>
      obtain ⟨k, hk⟩ := ih (Nat.lt_of_succ_lt_succ hj)
      refine ⟨k, ?_⟩
      rw [flipMessageBit] at hk
      rw [flipMessageBit, List.modify_succ_cons, messageBits_cons, messageBits_cons, streamPoly_append,
        streamPoly_append, hk, messageBits_length, messageBits_length, List.length_modify]
      ring

/-- `P` divides no power of x unless it is x^16. -/
theorem not_feedbackPoly_dvd_X_pow {p : Word} (hp : p ≠ 0#16) (k : Nat) : ¬ feedbackPoly p ∣ X ^ k := by
  intro h
  obtain ⟨i, -, hi⟩ := (dvd_prime_pow prime_X k).mp h
  have eq : feedbackPoly p = X ^ i := eq_of_monic_of_associated (feedbackPoly_monic p) (monic_X_pow i) hi
  have deg := feedbackPoly_degree p
  rw [eq, degree_X_pow] at deg
  obtain rfl : i = 16 := by exact_mod_cast deg
  exact hp (valuePoly_eq_zero (by simpa [feedbackPoly] using eq))

/-- Two messages of one length whose streams differ by a power of x have different CRCs: the difference of the closed
forms is a power of x, which `P` does not divide. -/
theorem crc16_ne_of_streamPoly {m m' : List Byte} {p : Word} {k : ℕ} (hp : p ≠ 0#16) (hlen : m'.length = m.length)
    (h : streamPoly (messageBits m') = streamPoly (messageBits m) + X ^ k) : crc16 m p ≠ crc16 m' p := by
  intro same
  obtain ⟨q, hq⟩ := valuePoly_crc16 m p
  obtain ⟨q', hq'⟩ := valuePoly_crc16 m' p
  rw [← same, hlen, h] at hq'
  refine not_feedbackPoly_dvd_X_pow hp (k + 16) ⟨q' - q, ?_⟩
  linear_combination hq - hq'

end Sys2Proof.Machine

namespace Sys2Proof.Proofs

open Sys2Proof.Machine Sys2Proof.Claims

/-- Settles O39: the round takes at most one `P` off. -/
theorem roundMultipliesByX : Obligations.RoundMultipliesByX :=
  fun r b p => ⟨valuePoly_eq_modByMonic (valuePoly_crcRound r b p), feedbackPoly_monic p⟩

/-- Settles O40: `crc16` differs from the polynomial by a multiple of `P`. -/
theorem closedForm : Obligations.ClosedForm := by
  intro buf p
  obtain ⟨q, h⟩ := valuePoly_crc16 buf p
  exact valuePoly_eq_modByMonic h

/-- Settles O43: the flipped bit adds a power of x; under POLY 0 the flush leaves 0. -/
theorem singleBitErrorsAreDetected : Obligations.SingleBitErrorsAreDetected := by
  refine ⟨fun m p j i hp hj hi => ?_, fun m => flushRounds_poly_zero _⟩
  obtain ⟨k, hk⟩ := streamPoly_messageBits_flip hj hi
  exact crc16_ne_of_streamPoly hp (List.length_modify ..) hk

end Sys2Proof.Proofs

/-! ## The commands that absorb no message bits -/

namespace Sys2Proof.Machine

/-- After the same words, two continuations that do the same from every state do the same. -/
theorem executeAll_append_congr {xs ys : List CmdWord} (h : ∀ t, executeAll xs t = executeAll ys t)
    (ws : List CmdWord) (s : State) : executeAll (ws ++ xs) s = executeAll (ws ++ ys) s := by
  induction ws generalizing s with
  | nil => exact h s
  | cons w ws ih =>
    rw [List.cons_append, List.cons_append, executeAll, executeAll]
    cases execute w s with
    | next t => exact ih t
    | fault r => rfl
    | refused r => rfl

/-- SETPOLY between commands that absorb: the streams before it under the old `POLY`, those after it under the new one
(R69, R86). -/
theorem executeAll_absorbs_setpoly {α : Type} {f : α → Instr} {bits : α → List Bit}
    (hf : ∀ a s, exec (f a) s = .next (s.absorb (bits a))) (as bs : List α) (q : Word) (is : List Instr) (s : State) :
    executeAll (.map encode (as.map f ++ [.setpoly q] ++ bs.map f ++ is)) s =
      executeAll (is.map encode) (((s.absorb (as.flatMap bits)).writePoly q).absorb (bs.flatMap bits)) := by
  have words : List.map encode (as.map f ++ [.setpoly q] ++ bs.map f ++ is) =
      as.map (fun a => encode (f a)) ++ encode (.setpoly q) :: (bs.map (fun b => encode (f b)) ++ is.map encode) := by
    simp [Function.comp_def]
  rw [words, executeAll_absorbs hf, executeAll_encode_cons (exec_setpoly q _), executeAll_absorbs hf]

end Sys2Proof.Machine

namespace Sys2Proof.Proofs

open Sys2Proof.Machine Sys2Proof.Claims

/-- Settles O12: NOP answers the state it is given, so a sequence goes on after it as without it. -/
theorem nopCompletesUnchanged : Obligations.NopCompletesUnchanged := by
  refine ⟨rfl, exec_nop, fun w s hop hw => ?illegal, fun before after s => ?sequence,
    fun s hcrc => ⟨s, exec_nop s, hcrc⟩⟩
  case illegal =>
    exact execute_of_isIllegal (isIllegal_of_ne_bare (fun _ => Decoded.isIllegal_ite_iff.mpr) hop hw) s
  case sequence =>
    rw [List.append_assoc]
    exact executeAll_append_congr (fun t => executeAll_encode_cons (exec_nop t) after) before s

/-- Settles O17: SETPOLY writes its operand to `POLY` and nothing else; what is absorbed reads `POLY` as it stands. -/
theorem setpolyCompletesWithThePolynomial : Obligations.SetpolyCompletesWithThePolynomial := by
  obtain ⟨twice, -⟩ := repeatedCommands
  obtain ⟨-, -, -, -, -, commutes, -⟩ := initCompletesWithAllOnes
  refine ⟨fun p => ?decodes, exec_setpoly, fun w s _ hrsv => execute_illegal (decode_of_rsv_ne_zero hrsv) s,
    fun buf => flushRounds_poly_zero _, fun p s => twice _ s (.inr (.inr (.inr ⟨p, decode_encode _⟩))),
    fun p s => (commutes s p).symm, fun p q as bs s hpoly => ?splits, fun s _ => exec_setpoly _ s⟩
  case decodes =>
    exact (congrArg decode (shiftLeft_or_eq_packWord (by decide) p 0x2#4)).trans (decode_encode (.setpoly p))
  case splits =>
    subst hpoly
    have run := executeAll_absorbs_setpoly exec_bit as bs q [] s
    rwa [List.append_nil, List.flatMap_singleton', List.flatMap_singleton'] at run

end Sys2Proof.Proofs

/-! ## Illegal words, and where a step stops -/

namespace Sys2Proof.Machine

variable {s t : State}

/-! ### `ERR` and the words that do not concern it -/

/-- No command reads or writes `ERR` (R19). -/
theorem exec_with_err {i : Instr} (h : exec i s = .next t) (e : Bit) :
    exec i { s with err := e } = .next { t with err := e } := by
  cases i <;> (obtain rfl := Host.Outcome.next.inj h; rfl)

/-- A legal word does the same whatever `ERR` is, and leaves it. -/
theorem execute_with_err {w : CmdWord} (hd : (decode w).isIllegal = false) (h : execute w s = .next t) (e : Bit) :
    execute w { s with err := e } = .next { t with err := e } := by
  obtain ⟨i, hi⟩ := Decoded.isIllegal_eq_false_iff.mp hd
  rw [execute_legal hi] at h ⊢
  exact exec_with_err h e

/-- A sequence of words completes, `ERR` collects its illegal words, and without them it does the same to all else,
whatever `ERR` is. The last clause is for every `e`: after an illegal word the two runs go on from states that differ in
`ERR`. -/
theorem executeAll_drop_illegal (ws : List CmdWord) (s : State) :
    ∃ t, executeAll ws s = .next t ∧ t.err = (s.err || ws.any fun w => (decode w).isIllegal) ∧
      ∀ e, executeAll (ws.filter fun w => !(decode w).isIllegal) { s with err := e } = .next { t with err := e } := by
  induction ws generalizing s with
  | nil => exact ⟨s, rfl, by simp, fun _ => rfl⟩
  | cons w ws ih =>
    obtain ⟨c, p, e', hw⟩ := execute_writes_registers w s
    have herr := execute_err hw
    cases hd : (decode w).isIllegal with
    | true =>
      obtain ⟨t, ht, hte, hdrop⟩ := ih s.raiseIllegalCommand
      refine ⟨t, (executeAll_cons (execute_of_isIllegal hd s)).trans ht, by simp [hte, hd], fun e => ?_⟩
      rw [List.filter_cons_of_neg (by simp [hd])]
      exact hdrop e
    | false =>
      obtain ⟨t, ht, hte, hdrop⟩ := ih { s with crc := c, poly := p, err := e' }
      refine ⟨t, (executeAll_cons hw).trans ht, by rw [hte, herr, List.any_cons, Bool.or_assoc], fun e => ?_⟩
      rw [List.filter_cons_of_pos (by simp [hd]), executeAll_cons (execute_with_err hd hw e)]
      exact hdrop e

/-! ### Where a step stops -/

/-- A step has a next state, unless a command is presented without reset while one is in progress: that step is refused
(R79, R87). -/
theorem step_next_or_refused (s : State) :
    (∃ t, step s = .next t) ∨
      (∃ w, s.inProgress = some w) ∧ s.takeInput.1.rst = false ∧ s.takeInput.1.cmdValid = true ∧
        step s = .refused (.commandWhileBusy s.takeInput.1.cmdIn) := by
  obtain ⟨-, h⟩ | ⟨-, -, h⟩ | ⟨w, hr, hb, hbusy⟩ := step_cases (s := s) rfl rfl
  · exact .inl ⟨_, h⟩
  · obtain ⟨-, h⟩ | ⟨-, -, h⟩ | ⟨-, -, h⟩ := h
    · exact .inl ⟨_, h⟩
    · obtain ⟨c, p, e, hw⟩ := execute_writes_registers s.takeInput.1.cmdIn s.takeInput.2
      exact .inl ⟨_, h.trans hw⟩
    · exact .inl ⟨_, h⟩
  · obtain ⟨hv, h⟩ | ⟨-, -, h⟩ | ⟨-, -, h⟩ := hbusy
    · exact .inr ⟨⟨w, hb⟩, hr, hv, h⟩
    · obtain ⟨c, p, e, hw⟩ := execute_writes_registers w s.takeInput.2.release
      exact .inl ⟨_, h.trans hw⟩
    · exact .inl ⟨_, h⟩

theorem step_refused {w : CmdWord} {p : PortInput} {rest : List PortInput} (hb : s.inProgress = some w)
    (hin : s.inputs = p :: rest) (hr : p.rst = false) (hv : p.cmdValid = true) :
    step s = .refused (.commandWhileBusy p.cmdIn) := by
  rw [step_busy hin hr hb]
  simp [driveBusy, hv]

end Sys2Proof.Machine

namespace Sys2Proof.Proofs

open Sys2Proof.Machine Sys2Proof.Claims

/-- Settles O22: `executeAll_drop_illegal`, at the `ERR` the sequence starts with. -/
theorem illegalWordsAreDroppedAndRecorded : Obligations.IllegalWordsAreDroppedAndRecorded := by
  intro ws s
  obtain ⟨t, ht, herr, hdrop⟩ := executeAll_drop_illegal ws s
  exact ⟨t, ht, herr, hdrop s.err⟩

/-- Settles O25: a step that has no next state is the refused one of `step_next_or_refused`. -/
theorem stepStopsOnlyOnABrokenHandshake : Obligations.StepStopsOnlyOnABrokenHandshake := by
  intro s
  refine ⟨fun f hf => ?fault, fun r => ⟨fun hr => ?broken, fun ⟨w, p, rest, hb, hin, hrst, hv, hcmd⟩ => ?refused⟩⟩
  case fault =>
    obtain ⟨t, h⟩ | ⟨-, -, -, h⟩ := step_next_or_refused s <;> cases hf.symm.trans h
  case broken =>
    obtain ⟨t, h⟩ | ⟨⟨w, hb⟩, hrst, hv, h⟩ := step_next_or_refused s
    · cases hr.symm.trans h
    · have hcmd := Host.Outcome.refused.inj (hr.symm.trans h)
      obtain ⟨p, rest, hin, hp⟩ := (State.exists_input_iff
        (P := fun p => p.rst = false ∧ p.cmdValid = true ∧ r = .commandWhileBusy p.cmdIn)
        (by simp [PortInput.idle]) s).mpr ⟨hrst, hv, hcmd⟩
      exact ⟨w, p, rest, hb, hin, hp⟩
  case refused => exact hcmd ▸ step_refused hb hin hrst hv

/-- Settles O20: an illegal word raises the exception, and the step that takes it executes it. -/
theorem illegalWordOnlySetsErr : Obligations.IllegalWordOnlySetsErr := by
  refine ⟨fun w s hd => execute_of_isIllegal hd s, fun w i s hd => execute_legal hd s, fun w s rest hd hb hin => ?_⟩
  rw [step_presented hb hin rfl rfl rfl]
  exact execute_of_isIllegal hd _

end Sys2Proof.Proofs

/-! ## Reset, the handshake along a run, and the host's duties in a message -/

namespace Sys2Proof.Safety

open Sys2Proof.Machine

theorem Phase.next_nop (ph : Phase) : ph.next .nop = some ph := by
  cases ph <;> rfl

/-- SETPOLY stands before INIT or before the first message bit, and the message stays where it is (R84, R86). -/
theorem Phase.eq_of_next_setpoly {ph ph' : Phase} {p : Word} (h : ph.next (.setpoly p) = some ph') : ph' = ph := by
  cases ph with
  | fresh | started => exact (Option.some.inj h).symm
  | feeding | done => cases h

end Sys2Proof.Safety

namespace Sys2Proof.Machine

open Sys2Proof.Safety

variable {s t s1 s2 : State}

/-! ### The handshake along a step -/

theorem handshakeKept_of_ready (hb : s.inProgress = none) : handshakeKept s = inputsKeepHandshake false s.inputs := by
  simp [handshakeKept, State.cmdReady, hb]

theorem handshakeKept_of_busy {w : CmdWord} (hb : s.inProgress = some w) :
    handshakeKept s = inputsKeepHandshake true s.inputs := by
  simp [handshakeKept, State.cmdReady, hb]

/-- The handshake read off the input the step takes: an empty list of inputs is a host that presents nothing and waits
(log 2). -/
theorem handshakeKept_of_takeInput {s' : State} {p : PortInput} (hp : s.takeInput = (p, s')) :
    handshakeKept s =
      if p.rst then inputsKeepHandshake false s'.inputs
      else if p.cmdValid then s.cmdReady && inputsKeepHandshake (!p.awaitReady) s'.inputs
      else inputsKeepHandshake (!s.cmdReady && !p.awaitReady) s'.inputs := by
  cases h : s.inputs with
  | nil =>
    obtain ⟨rfl, rfl⟩ := Prod.mk.inj ((s.takeInput_nil h).symm.trans hp)
    simp [handshakeKept, h, inputsKeepHandshake, PortInput.idle]
  | cons q rest =>
    obtain ⟨rfl, rfl⟩ := Prod.mk.inj ((s.takeInput_cons q rest h).symm.trans hp)
    simp [handshakeKept, h, inputsKeepHandshake]

/-- A word executed with nothing in progress completes, and its host keeps the handshake still. -/
theorem execute_keeps_handshake (w : CmdWord) (hb : s.inProgress = none)
    (hkeep : inputsKeepHandshake false s.inputs = true) : ∃ t, execute w s = .next t ∧ handshakeKept t = true := by
  obtain ⟨c, p, e, hw⟩ := execute_writes_registers w s
  exact ⟨_, hw, (handshakeKept_of_ready hb).trans hkeep⟩

/-- The handshake is an invariant of the step, and under it the step has a next state (R87): of the cases of
`step_cases` it rules out the refusal, and in each of the others what it asks of the inputs left is what it asks of the
next state. -/
theorem step_keeps_handshake (hkeep : handshakeKept s = true) : ∃ t, step s = .next t ∧ handshakeKept t = true := by
  obtain ⟨p, s', hp⟩ : ∃ p s', s.takeInput = (p, s') := ⟨_, _, rfl⟩
  have same : s'.inProgress = s.inProgress := by simpa [hp] using s.takeInput_inProgress
  rw [handshakeKept_of_takeInput hp, State.cmdReady] at hkeep
  obtain ⟨hr, h⟩ | ⟨hr, hb, ⟨hv, h⟩ | ⟨hv, ha, h⟩ | ⟨hv, ha, h⟩⟩ |
      ⟨w, hr, hb, ⟨hv, -⟩ | ⟨hv, ha, h⟩ | ⟨hv, ha, h⟩⟩ := step_cases hp rfl
  · exact ⟨_, h, (handshakeKept_of_ready rfl).trans (by simpa [hr] using hkeep)⟩
  · exact ⟨_, h, (handshakeKept_of_ready (same.trans hb)).trans (by simpa [hr, hb, hv] using hkeep)⟩
  · rw [h]
    exact execute_keeps_handshake _ (same.trans hb) (by simpa [hr, hb, hv, ha] using hkeep)
  · exact ⟨_, h, (handshakeKept_of_busy rfl).trans (by simpa [hr, hb, hv, ha] using hkeep)⟩
  · simp [hr, hb, hv] at hkeep
  · rw [h]
    exact execute_keeps_handshake _ rfl (by simpa [hr, hb, hv, ha] using hkeep)
  · exact ⟨_, h, (handshakeKept_of_busy (same.trans hb)).trans (by simpa [hr, hb, hv, ha] using hkeep)⟩

/-! ### A message and the state before it -/

/-- Two states that the rest of a conforming message does not tell apart: the same `POLY` and, once INIT has been
issued, the same `CRC` (R83, R84). -/
def AgreeAt (ph : Phase) (s1 s2 : State) : Prop := s1.poly = s2.poly ∧ (ph ≠ .fresh → s1.crc = s2.crc)

/-- Absorbing the same bits after INIT gives the same `CRC`, whatever the phase after it. -/
theorem AgreeAt.absorb {ph : Phase} (h : AgreeAt ph s1 s2) (hph : ph ≠ .fresh) (ph' : Phase) (bs : List Bit) :
    AgreeAt ph' (s1.absorb bs) (s2.absorb bs) := by
  obtain ⟨hpoly, hcrc⟩ := h
  exact ⟨hpoly, fun _ => by simp [hpoly, hcrc hph]⟩

/-- A command that keeps the duties takes states that agree to states that agree, and leaves `ERR`. -/
theorem exec_agreeAt {ph ph' : Phase} {i : Instr} (hnext : ph.next i = some ph') (h : AgreeAt ph s1 s2) :
    ∃ t1 t2, exec i s1 = .next t1 ∧ exec i s2 = .next t2 ∧ AgreeAt ph' t1 t2 ∧ t1.err = s1.err ∧ t2.err = s2.err := by
  have ⟨hpoly, hcrc⟩ := h
  cases i with
  | nop =>
    obtain rfl := Option.some.inj ((Phase.next_nop ph).symm.trans hnext)
    exact ⟨_, _, rfl, rfl, h, rfl, rfl⟩
  | init => exact ⟨_, _, rfl, rfl, ⟨hpoly, fun _ => rfl⟩, rfl, rfl⟩
  | setpoly p =>
    obtain rfl := Phase.eq_of_next_setpoly hnext
    exact ⟨_, _, rfl, rfl, ⟨rfl, hcrc⟩, rfl, rfl⟩
  | bit | byte | flush =>
    have hph : ph ≠ .fresh := by rintro rfl; cases hnext
    exact ⟨_, _, rfl, rfl, h.absorb hph ph' _, rfl, rfl⟩

/-- A sequence of commands that keeps the duties takes states that agree to states that agree, and leaves `ERR`. -/
theorem executeAll_agreeAt {ph ph' : Phase} {is : List Instr} (hafter : ph.after is = some ph')
    (h : AgreeAt ph s1 s2) :
    ∃ t1 t2, executeAll (is.map encode) s1 = .next t1 ∧ executeAll (is.map encode) s2 = .next t2 ∧
      AgreeAt ph' t1 t2 ∧ t1.err = s1.err ∧ t2.err = s2.err := by
  induction is generalizing ph s1 s2 with
  | nil =>
    obtain rfl := Option.some.inj hafter
    exact ⟨s1, s2, rfl, rfl, h, rfl, rfl⟩
  | cons i is ih =>
    obtain ⟨mid, hnext, hrest⟩ := Option.bind_eq_some_iff.mp hafter
    obtain ⟨u1, u2, hu1, hu2, hu, herr1, herr2⟩ := exec_agreeAt hnext h
    obtain ⟨t1, t2, ht1, ht2, ht, hrest1, hrest2⟩ := ih hrest hu
    exact ⟨t1, t2, (executeAll_encode_cons hu1 _).trans ht1, (executeAll_encode_cons hu2 _).trans ht2, ht,
      hrest1.trans herr1, hrest2.trans herr2⟩

/-! ### Sequences continued -/

theorem executeAll_append {ws : List CmdWord} (h : executeAll ws s = .next t) (xs : List CmdWord) :
    executeAll (ws ++ xs) s = executeAll xs t := by
  induction ws generalizing s with
  | nil =>
    obtain rfl := Host.Outcome.next.inj h
    rfl
  | cons w ws ih =>
    obtain ⟨c, p, e, hw⟩ := execute_writes_registers w s
    rw [executeAll_cons hw] at h
    rw [List.cons_append, executeAll_cons hw, ih h]

/-- INIT and the BYTEs of a buffer leave the rounds of its bits from 0xFFFF. -/
theorem executeAll_init_bytes (buf : List Byte) (s : State) :
    executeAll (.map encode (.init :: buf.map .byte)) s =
      .next (s.writeCrc (absorbBits Config.initValue (messageBits buf) s.poly)) := by
  have bytes := executeAll_absorbs exec_byte buf [] (s.writeCrc Config.initValue)
  rw [List.append_nil] at bytes
  rw [List.map_cons, executeAll_encode_cons (exec_init s), List.map_map]
  exact bytes

/-- A FLUSH at the end of a sequence flushes what the sequence leaves. -/
theorem executeAll_append_flush {is : List Instr} {c p v : Word}
    (h : executeAll (is.map encode) s = .next { s with crc := c }) (hpoly : s.poly = p) (hv : flushRounds c p = v) :
    executeAll ((is ++ [Instr.flush]).map encode) s = .next { s with crc := v } := by
  subst hpoly hv
  rw [List.map_append, executeAll_append h, List.map_singleton, executeAll_singleton_encode, exec_flush]
  rfl

end Sys2Proof.Machine

namespace Sys2Proof.Proofs

open Sys2Proof.Machine Sys2Proof.Safety Sys2Proof.Claims

/-- Settles O26: `step_keeps_handshake`. -/
theorem handshakeIsKeptAndNeverStops : Obligations.HandshakeIsKeptAndNeverStops := fun _ => step_keeps_handshake

/-- Settles O36: before INIT the two states need agree in `POLY` alone, and after FLUSH they agree in `CRC` too. -/
theorem conformingMessageIgnoresHistory : Obligations.ConformingMessageIgnoresHistory := by
  intro is his s1 s2 hpoly
  obtain ⟨t1, t2, ht1, ht2, ⟨htpoly, htcrc⟩, herr1, herr2⟩ :=
    executeAll_agreeAt (s1 := s1) (s2 := s2) (beq_iff_eq.mp his) ⟨hpoly, fun h => absurd rfl h⟩
  exact ⟨t1, t2, ht1, ht2, htcrc (by decide), htpoly, herr1, herr2⟩

/-- Settles O46: `executeAll_absorbs_setpoly` after INIT and before FLUSH; P7's values by evaluation. -/
theorem setpolySplitsAMessage : Obligations.SetpolySplitsAMessage := by
  have splits (first second : List Byte) (q : Word) (s : State) :
      executeAll (.map encode (.init :: (first.map .byte ++ [.setpoly q] ++ second.map .byte ++ [.flush]))) s =
        .next ((s.writePoly q).writeCrc
          (absorbBits (absorbBits 0xFFFF#16 (messageBits first) s.poly)
            (messageBits second ++ List.replicate 16 false) q)) := by
    rw [List.map_cons, executeAll_encode_cons (exec_init s), executeAll_absorbs_setpoly exec_byte, List.map_singleton,
      executeAll_singleton_encode, exec_flush, State.absorb_absorb]
    rfl
  refine ⟨splits, fun s hpoly => ⟨_, splits [0x41#8] [0x42#8] 0x8005#16 s, ?_⟩⟩
  rw [State.writeCrc_crc, hpoly]
  decide +kernel

/-- Settles O2: a step with `rst` high is a reset, and the constants of Config are R80's values. -/
theorem resetFromAnyState : Obligations.ResetFromAnyState := fun _ _ _ => step_reset

/-- Settles O45: what INIT and the bytes leave, flushed once and once more; a NOP changes nothing. -/
theorem flushOnceThenRead : Obligations.FlushOnceThenRead := by
  intro s hpoly
  obtain ⟨-, -, -, nopInside, -⟩ := nopCompletesUnchanged
  have read : executeAll (.map encode (.init :: checkString.map .byte)) s = .next { s with crc := 0xA69D#16 } := by
    have rounds : absorbBits Config.initValue (messageBits checkString) 0x1021#16 = 0xA69D#16 := by decide +kernel
    rw [← rounds, ← hpoly]
    exact executeAll_init_bytes checkString s
  have flushed : executeAll (.map encode (messageCommands checkString)) s = .next { s with crc := 0xE5CC#16 } :=
    executeAll_append_flush read hpoly (v := 0xE5CC#16) (by decide +kernel)
  refine ⟨read, flushed, executeAll_append_flush flushed hpoly (v := 0xF787#16) (by decide +kernel), ?_⟩
  exact (nopInside (.map encode (.init :: checkString.map .byte)) [encode .flush] s).trans flushed

end Sys2Proof.Proofs

/-! ## The words of the test vectors, and the handshake at reset -/

namespace Sys2Proof

open Machine

/-- A word with a bit of `RSV` set is illegal, whatever its `OP` and `IMM16` (R41). -/
theorem isIllegal_of_rsv_ne_zero {w : CmdWord} (h : rsvField w ≠ 0) : (decode w).isIllegal = true := by
  rw [decode_of_rsv_ne_zero h, Decoded.isIllegal_illegal]

/-- A word with a reserved opcode is illegal, whatever its `RSV` and `IMM16` (R41). -/
theorem isIllegal_of_reserved_op {w : CmdWord} (h : 6 ≤ w.toNat % 16) : (decode w).isIllegal = true :=
  isIllegal_of_operand rfl fun _ => by rw [decodeOp_of_six_le h, Decoded.isIllegal_illegal]

end Sys2Proof

namespace Sys2Proof.Proofs

open Sys2Proof.Machine

/-- Settles O6: a legal word is the encoding of its command; an illegal one has an operand that its command forbids, a
bit of `RSV` set, or a reserved opcode. -/
theorem sampleWordsDecode : Obligations.SampleWordsDecode := by
  refine ⟨decode_encode .nop, decode_encode .init, decode_encode (.setpoly 0x1021#16),
    decode_encode (.setpoly 0xFFFF#16), decode_encode (.bit false), decode_encode (.bit true),
    decode_encode (.byte 0x41#8), decode_encode .flush, ?bitOperand, ?byteOperand, ?flushOperand, ?initOperand,
    ?rsvBit4, ?rsvBit15, ?opSix, ?opFifteen, ?nopOperand⟩
  case bitOperand => exact isIllegal_of_operand (op := 3) rfl fun _ => rfl
  case byteOperand => exact isIllegal_of_operand (op := 4) rfl fun _ => rfl
  case flushOperand => exact isIllegal_of_operand (op := 5) rfl fun _ => rfl
  case initOperand => exact isIllegal_of_operand (op := 1) rfl fun _ => rfl
  case nopOperand => exact isIllegal_of_operand (op := 0) rfl fun _ => rfl
  case rsvBit4 | rsvBit15 => exact isIllegal_of_rsv_ne_zero (by decide)
  case opSix | opFifteen => exact isIllegal_of_reserved_op (by decide)

/-- Settles O27: nothing is in progress at reset, and no input is left that could break the handshake (log 9). -/
theorem resetKeepsTheHandshake : Obligations.ResetKeepsTheHandshake := handshakeKept_of_ready rfl

end Sys2Proof.Proofs
